-- ==== Sys2Proof/Word.lean ====
section
/-! DEFINITION. The bit vectors of the machine: bytes, 16-bit words, nibbles, 12-bit addresses
(`00_scope.md` section 5.1, R3). Everything is unsigned; there is no sign extension anywhere. -/

namespace Sys2Proof

/-- An 8-bit value: a general register, a timer, a byte of memory (R10, R23, R40). -/
abbrev Byte := BitVec 8

/-- A 16-bit value: the instruction word, `I`, `pc`, a stack slot (R16, R18, R21, R60). -/
abbrev Word := BitVec 16

/-- A 4-bit field of an instruction word (R61). -/
abbrev Nibble := BitVec 4

/-- The index of a general register: a 4-bit field, so every index names a register (R11). -/
abbrev RegIdx := BitVec 4

/-- A 12-bit address field `nnn` (R62). -/
abbrev Addr12 := BitVec 12

end Sys2Proof
end

