-- ==== Sys2Proof/Config.lean ====
section
/-! DEFINITION. What is fixed for the lifetime of one engine (R3, R4), and the values the spec leaves
open: opaque constants, so that a proof holds whatever they are. -/

namespace Sys2Proof

/-- The input source's answer to one `poll()` (R177): it goes on with a refreshed key state (key `k`
is down iff `keys[k]`), or it signals termination. `report` is the environment's choice among several
keys that go down in the same poll, which only the wait of `Fx0A` reads (R179; log 7). -/
inductive PollAnswer where
  | proceed (keys : Vector Bool 16) (report : Nibble)
  | quit
  deriving DecidableEq, Repr, Inhabited

/-- What the blocking wait for a key returns: `Key(k)` or `Quit` (R179). -/
inductive KeyWaitEnd where
  | key (k : Nibble)
  | quit
  deriving DecidableEq, Repr, Inhabited

namespace Config

/-- Size of the memory image: addresses 0 to `0xFFF` (R3, R40). -/
abbrev memSize : Nat := 4096

/-- Where a program image is loaded and where the first instruction is fetched (R3, R30, R234). -/
abbrev programBase : Nat := 0x200

/-- The largest program image, in bytes (R3, R234). -/
abbrev maxProgramSize : Nat := 0xE00

/-- `STACK_MAX_DEPTH`: how many calls can be nested (R4, R22; log 11). -/
abbrev stackMaxDepth : Nat := 15

/-- 16 glyphs of 5 bytes (R3). -/
abbrev fontSize : Nat := 80

/-- `FONTSET_LOCATION`, an open parameter with `FONTSET_LOCATION + 80 <= 0x200` (R4, D18; log 1):
the type `Fin 433` is that constraint. -/
opaque fontsetLocation : Fin 433

/-- `FONT_TABLE`, 80 open bytes (R4, D18; log 1). -/
opaque fontTable : Fin 80 → Byte

/-- Free value: the input source's answer to its `n`-th poll that no listed answer covers
(R177 gives no law; log 5). -/
opaque freePoll : Nat → PollAnswer

/-- Free value: how a blocking wait for a key ends whose listed answers do not end it, if it ends
("The transaction may never return", R179; log 5, log 6). -/
opaque freeWait : Nat → Option KeyWaitEnd

/-- Free value: the key state that the unlisted polls of such a wait leave (R179; log 6). -/
opaque freeWaitKeys : Nat → Vector Bool 16

/-- Free value: the random source's `n`-th byte that no listed byte covers (R183: "any value 0 to 255,
under no law"; log 5, log 17). -/
opaque freeRandomByte : Nat → Byte

end Config

end Sys2Proof
end

