-- ==== Sys2Proof/Syntax.lean ====
section
/-! DEFINITION. The instruction set: one constructor per row of spec/opcode_table.json (R64), with the
operand fields of R62. -/

namespace Sys2Proof

/-- The 34 instructions of R64, in the table's order. Field widths are those of R62, so no operand can
be out of range (R11). -/
inductive Instr where
  /-- `00E0` CLS (R170) -/
  | cls
  /-- `00EE` RET (R102) -/
  | ret
  /-- `1nnn` JP nnn (R100) -/
  | jp (nnn : Addr12)
  /-- `2nnn` CALL nnn (R101) -/
  | call (nnn : Addr12)
  /-- `3xnn` SE Vx, nn (R104) -/
  | seImm (x : RegIdx) (nn : Byte)
  /-- `4xnn` SNE Vx, nn (R105) -/
  | sneImm (x : RegIdx) (nn : Byte)
  /-- `5xy0` SE Vx, Vy (R106) -/
  | seReg (x y : RegIdx)
  /-- `6xnn` LD Vx, nn (R120) -/
  | ldImm (x : RegIdx) (nn : Byte)
  /-- `7xnn` ADD Vx, nn (R121) -/
  | addImm (x : RegIdx) (nn : Byte)
  /-- `8xy0` LD Vx, Vy (R122) -/
  | ldReg (x y : RegIdx)
  /-- `8xy1` OR Vx, Vy (R123) -/
  | or (x y : RegIdx)
  /-- `8xy2` AND Vx, Vy (R124) -/
  | and (x y : RegIdx)
  /-- `8xy3` XOR Vx, Vy (R125) -/
  | xor (x y : RegIdx)
  /-- `8xy4` ADD Vx, Vy (R126) -/
  | addReg (x y : RegIdx)
  /-- `8xy5` SUB Vx, Vy (R127) -/
  | sub (x y : RegIdx)
  /-- `8xy6` SHR Vx (R128); `y` is encoded and ignored (R67; log 18) -/
  | shr (x y : RegIdx)
  /-- `8xy7` SUBN Vx, Vy (R129) -/
  | subn (x y : RegIdx)
  /-- `8xyE` SHL Vx (R130); `y` is encoded and ignored (R67; log 18) -/
  | shl (x y : RegIdx)
  /-- `9xy0` SNE Vx, Vy (R107) -/
  | sneReg (x y : RegIdx)
  /-- `Annn` LD I, nnn (R140) -/
  | ldI (nnn : Addr12)
  /-- `Bnnn` JP V0, nnn (R103) -/
  | jpV0 (nnn : Addr12)
  /-- `Cxnn` RND Vx, nn (R184) -/
  | rnd (x : RegIdx) (nn : Byte)
  /-- `Dxyn` DRW Vx, Vy, n (R175) -/
  | drw (x y : RegIdx) (n : Nibble)
  /-- `Ex9E` SKP Vx (R180) -/
  | skp (x : RegIdx)
  /-- `ExA1` SKNP Vx (R181) -/
  | sknp (x : RegIdx)
  /-- `Fx07` LD Vx, DT (R161) -/
  | ldVxDt (x : RegIdx)
  /-- `Fx0A` LD Vx, K (R182) -/
  | ldVxK (x : RegIdx)
  /-- `Fx15` LD DT, Vx (R162) -/
  | ldDtVx (x : RegIdx)
  /-- `Fx18` LD ST, Vx (R163) -/
  | ldStVx (x : RegIdx)
  /-- `Fx1E` ADD I, Vx (R141) -/
  | addI (x : RegIdx)
  /-- `Fx29` LD F, Vx (R142) -/
  | ldF (x : RegIdx)
  /-- `Fx33` LD B, Vx (R143) -/
  | ldB (x : RegIdx)
  /-- `Fx55` LD [I], Vx (R144) -/
  | ldMemVx (x : RegIdx)
  /-- `Fx65` LD Vx, [I] (R145) -/
  | ldVxMem (x : RegIdx)
  deriving DecidableEq, Repr

end Sys2Proof
end

