-- ==== Sys2Proof/WellFormed.lean ====
section
/-! DEFINITION. Well-formedness checks. The operand fields of `Instr` are bit vectors of R62's widths,
so every term of `Instr` is well-formed by its type ("structurally bounded ... by the decode step",
R11; log 25): `Instr.wf` only spells the bounds out. What can be ill-formed is a program image that is too
large (R234). -/

namespace Sys2Proof

/-- A register field is in 0 to 15 (R11, R62). -/
def regInRange (x : RegIdx) : Bool := decide (x.toNat ≤ 0xF)

/-- An immediate byte is in 0 to 255 (R62). -/
def byteInRange (nn : Byte) : Bool := decide (nn.toNat ≤ 0xFF)

/-- An immediate address is in 0 to `0xFFF` (R49, R62). -/
def addrInRange (nnn : Addr12) : Bool := decide (nnn.toNat ≤ 0xFFF)

/-- The operand bounds of R11, R49 and R62, instruction by instruction. -/
def Instr.wf : Instr → Bool
  | .cls => true
  | .ret => true
  | .jp nnn => addrInRange nnn
  | .call nnn => addrInRange nnn
  | .seImm x nn => regInRange x && byteInRange nn
  | .sneImm x nn => regInRange x && byteInRange nn
  | .seReg x y => regInRange x && regInRange y
  | .ldImm x nn => regInRange x && byteInRange nn
  | .addImm x nn => regInRange x && byteInRange nn
  | .ldReg x y => regInRange x && regInRange y
  | .or x y => regInRange x && regInRange y
  | .and x y => regInRange x && regInRange y
  | .xor x y => regInRange x && regInRange y
  | .addReg x y => regInRange x && regInRange y
  | .sub x y => regInRange x && regInRange y
  | .shr x y => regInRange x && regInRange y
  | .subn x y => regInRange x && regInRange y
  | .shl x y => regInRange x && regInRange y
  | .sneReg x y => regInRange x && regInRange y
  | .ldI nnn => addrInRange nnn
  | .jpV0 nnn => addrInRange nnn
  | .rnd x nn => regInRange x && byteInRange nn
  | .drw x y n => regInRange x && regInRange y && regInRange n
  | .skp x => regInRange x
  | .sknp x => regInRange x
  | .ldVxDt x => regInRange x
  | .ldVxK x => regInRange x
  | .ldDtVx x => regInRange x
  | .ldStVx x => regInRange x
  | .addI x => regInRange x
  | .ldF x => regInRange x
  | .ldB x => regInRange x
  | .ldMemVx x => regInRange x
  | .ldVxMem x => regInRange x

/-- A program image the loader accepts: at most `0xE00` bytes, so that it ends at `0xFFF` (R234). -/
def imageWf (img : List Byte) : Bool := decide (img.length ≤ Config.maxProgramSize)

end Sys2Proof
end

