-- ==== Sys2Proof/Decode.lean ====
section
/-! DEFINITION. Decoding (R60 to R67, R83 to R85) and, after it, encoding. An instruction is two bytes,
high byte first; the word is split into nibbles and matched against the whole pattern of one row of
R64 (R65; log 14). -/

namespace Sys2Proof

/-- `op1 = opcode[15:12]`, the dispatch nibble (R61). -/
def op1 (w : Word) : Nibble := w.extractLsb' 12 4

/-- `x = op2 = opcode[11:8]` (R62). -/
def fieldX (w : Word) : RegIdx := w.extractLsb' 8 4

/-- `y = op3 = opcode[7:4]` (R62). -/
def fieldY (w : Word) : RegIdx := w.extractLsb' 4 4

/-- `n = op4 = opcode[3:0]` (R62). -/
def fieldN (w : Word) : Nibble := w.extractLsb' 0 4

/-- `nn = opcode[7:0]` (R62). -/
def fieldNN (w : Word) : Byte := w.extractLsb' 0 8

/-- `nnn = opcode[11:0]` (R62). -/
def fieldNNN (w : Word) : Addr12 := w.extractLsb' 0 12

/-- Dispatch among the words with `op1 = 0`: exactly `00E0` and `00EE` (R64 rows 1, 2; there is no
`0nnn`, C1). -/
def decodeFixed (w : Word) : Option Instr :=
  match (fieldNNN w).toNat with
  | 0x0E0 => some .cls
  | 0x0EE => some .ret
  | _ => none

/-- Dispatch among the words with `op1 = 8` by `op4` (R64 rows 10 to 18). -/
def decodeAlu (w : Word) : Option Instr :=
  let x := fieldX w
  let y := fieldY w
  match (fieldN w).toNat with
  | 0x0 => some (.ldReg x y)
  | 0x1 => some (.or x y)
  | 0x2 => some (.and x y)
  | 0x3 => some (.xor x y)
  | 0x4 => some (.addReg x y)
  | 0x5 => some (.sub x y)
  | 0x6 => some (.shr x y)
  | 0x7 => some (.subn x y)
  | 0xE => some (.shl x y)
  | _ => none

/-- Dispatch among the words with `op1 = E` by the low byte (R64 rows 24, 25). -/
def decodeKey (w : Word) : Option Instr :=
  match (fieldNN w).toNat with
  | 0x9E => some (.skp (fieldX w))
  | 0xA1 => some (.sknp (fieldX w))
  | _ => none

/-- Dispatch among the words with `op1 = F` by the low byte (R64 rows 26 to 34). -/
def decodeMisc (w : Word) : Option Instr :=
  let x := fieldX w
  match (fieldNN w).toNat with
  | 0x07 => some (.ldVxDt x)
  | 0x0A => some (.ldVxK x)
  | 0x15 => some (.ldDtVx x)
  | 0x18 => some (.ldStVx x)
  | 0x1E => some (.addI x)
  | 0x29 => some (.ldF x)
  | 0x33 => some (.ldB x)
  | 0x55 => some (.ldMemVx x)
  | 0x65 => some (.ldVxMem x)
  | _ => none

/-- Dispatch on the nibble pattern to exactly one row of R64, or to none (R65, R84, R85). -/
def decodeWord (w : Word) : Option Instr :=
  let x := fieldX w
  let y := fieldY w
  match (op1 w).toNat with
  | 0x0 => decodeFixed w
  | 0x1 => some (.jp (fieldNNN w))
  | 0x2 => some (.call (fieldNNN w))
  | 0x3 => some (.seImm x (fieldNN w))
  | 0x4 => some (.sneImm x (fieldNN w))
  | 0x5 => if fieldN w = 0 then some (.seReg x y) else none
  | 0x6 => some (.ldImm x (fieldNN w))
  | 0x7 => some (.addImm x (fieldNN w))
  | 0x8 => decodeAlu w
  | 0x9 => if fieldN w = 0 then some (.sneReg x y) else none
  | 0xA => some (.ldI (fieldNNN w))
  | 0xB => some (.jpV0 (fieldNNN w))
  | 0xC => some (.rnd x (fieldNN w))
  | 0xD => some (.drw x y (fieldN w))
  | 0xE => decodeKey w
  | 0xF => decodeMisc w
  | _ => none

/-- Why a list of bytes is not an instruction. -/
inductive DecodeError where
  /-- fewer than two bytes -/
  | truncated
  /-- the word matches no row of R64 (R65, R66) -/
  | unknownOpcode (w : Word)
  deriving DecidableEq, Repr

/-- The opcode of two consecutive bytes: the byte at the lower address is the high byte (R42, R60). -/
def wordOfBytes (hi lo : Byte) : Word := hi ++ lo

/-- Decode the instruction at the head of a list of bytes and give the bytes after it (R60, R65). -/
def decode : List Byte → Except DecodeError (Instr × List Byte)
  | hi :: lo :: rest =>
    match decodeWord (wordOfBytes hi lo) with
    | some i => .ok (i, rest)
    | none => .error (.unknownOpcode (wordOfBytes hi lo))
  | _ => .error .truncated

/-- The bytes of a table word as memory stores them, high byte first (R42). Bits above `nbits` are 0,
and an instruction has 16 bits (R60). -/
def tableWordBytes (nbits w : Nat) : List Byte :=
  let v := w % 2 ^ nbits
  [BitVec.ofNat 8 (v / 256), BitVec.ofNat 8 v]

/-- The instruction the decoder reads from the word `w` of spec/opcode_table.json's numbering. -/
def decodeTableWord (nbits w : Nat) : Option Instr :=
  match decode (tableWordBytes nbits w) with
  | .ok (i, _) => some i
  | .error _ => none

/-! ## Encoding -/

/-- A word in format `XY` or `XYN`: four nibbles, `op1` the most significant (R61, R63). -/
def ofNibbles (a b c d : Nibble) : Word := a ++ b ++ c ++ d

/-- A word in format `XNN` or `X`: `op1`, `x`, then a byte (R63). -/
def ofNibblesByte (a b : Nibble) (nn : Byte) : Word := a ++ b ++ nn

/-- A word in format `NNN`: `op1`, then an address (R63). -/
def ofNibbleAddr (a : Nibble) (nnn : Addr12) : Word := a ++ nnn

/-- The word of an instruction, from the patterns of R64. -/
def encode : Instr → Word
  | .cls => 0x00E0
  | .ret => 0x00EE
  | .jp nnn => ofNibbleAddr 0x1 nnn
  | .call nnn => ofNibbleAddr 0x2 nnn
  | .seImm x nn => ofNibblesByte 0x3 x nn
  | .sneImm x nn => ofNibblesByte 0x4 x nn
  | .seReg x y => ofNibbles 0x5 x y 0x0
  | .ldImm x nn => ofNibblesByte 0x6 x nn
  | .addImm x nn => ofNibblesByte 0x7 x nn
  | .ldReg x y => ofNibbles 0x8 x y 0x0
  | .or x y => ofNibbles 0x8 x y 0x1
  | .and x y => ofNibbles 0x8 x y 0x2
  | .xor x y => ofNibbles 0x8 x y 0x3
  | .addReg x y => ofNibbles 0x8 x y 0x4
  | .sub x y => ofNibbles 0x8 x y 0x5
  | .shr x y => ofNibbles 0x8 x y 0x6
  | .subn x y => ofNibbles 0x8 x y 0x7
  | .shl x y => ofNibbles 0x8 x y 0xE
  | .sneReg x y => ofNibbles 0x9 x y 0x0
  | .ldI nnn => ofNibbleAddr 0xA nnn
  | .jpV0 nnn => ofNibbleAddr 0xB nnn
  | .rnd x nn => ofNibblesByte 0xC x nn
  | .drw x y n => ofNibbles 0xD x y n
  | .skp x => ofNibblesByte 0xE x 0x9E
  | .sknp x => ofNibblesByte 0xE x 0xA1
  | .ldVxDt x => ofNibblesByte 0xF x 0x07
  | .ldVxK x => ofNibblesByte 0xF x 0x0A
  | .ldDtVx x => ofNibblesByte 0xF x 0x15
  | .ldStVx x => ofNibblesByte 0xF x 0x18
  | .addI x => ofNibblesByte 0xF x 0x1E
  | .ldF x => ofNibblesByte 0xF x 0x29
  | .ldB x => ofNibblesByte 0xF x 0x33
  | .ldMemVx x => ofNibblesByte 0xF x 0x55
  | .ldVxMem x => ofNibblesByte 0xF x 0x65

/-- A word as memory stores it: two bytes, high byte first (R60). -/
def bytesOfWord (w : Word) : List Byte := [w.extractLsb' 8 8, w.extractLsb' 0 8]

/-- The two bytes of an instruction (R60). -/
def encodeBytes (i : Instr) : List Byte := bytesOfWord (encode i)

/-! ## The opcode table of R64, as data -/

/-- One row of R64: `w` selects it iff `w &&& mask = value`. -/
structure OpcodeRow where
  mnemonic : String
  value : Word
  mask : Word
  deriving DecidableEq, Repr

/-- Does the word select the row (R64, R65)? -/
def OpcodeRow.selects (r : OpcodeRow) (w : Word) : Bool := w &&& r.mask == r.value

/-- Rows 1 to 19 of R64, with the mnemonics of spec/opcode_table.json. -/
def opcodeRowsLow : List OpcodeRow :=
  [⟨"CLS", 0x00E0, 0xFFFF⟩, ⟨"RET", 0x00EE, 0xFFFF⟩, ⟨"JP", 0x1000, 0xF000⟩, ⟨"CALL", 0x2000, 0xF000⟩,
   ⟨"SE_IMM", 0x3000, 0xF000⟩, ⟨"SNE_IMM", 0x4000, 0xF000⟩, ⟨"SE_REG", 0x5000, 0xF00F⟩,
   ⟨"LD_IMM", 0x6000, 0xF000⟩, ⟨"ADD_IMM", 0x7000, 0xF000⟩, ⟨"LD_REG", 0x8000, 0xF00F⟩] ++
  [⟨"OR", 0x8001, 0xF00F⟩, ⟨"AND", 0x8002, 0xF00F⟩, ⟨"XOR", 0x8003, 0xF00F⟩,
   ⟨"ADD_REG", 0x8004, 0xF00F⟩, ⟨"SUB", 0x8005, 0xF00F⟩, ⟨"SHR", 0x8006, 0xF00F⟩,
   ⟨"SUBN", 0x8007, 0xF00F⟩, ⟨"SHL", 0x800E, 0xF00F⟩, ⟨"SNE_REG", 0x9000, 0xF00F⟩]

/-- Rows 20 to 34 of R64. -/
def opcodeRowsHigh : List OpcodeRow :=
  [⟨"LD_I", 0xA000, 0xF000⟩, ⟨"JP_V0", 0xB000, 0xF000⟩, ⟨"RND", 0xC000, 0xF000⟩,
   ⟨"DRW", 0xD000, 0xF000⟩, ⟨"SKP", 0xE09E, 0xF0FF⟩, ⟨"SKNP", 0xE0A1, 0xF0FF⟩,
   ⟨"LD_VX_DT", 0xF007, 0xF0FF⟩, ⟨"LD_VX_K", 0xF00A, 0xF0FF⟩] ++
  [⟨"LD_DT_VX", 0xF015, 0xF0FF⟩, ⟨"LD_ST_VX", 0xF018, 0xF0FF⟩, ⟨"ADD_I", 0xF01E, 0xF0FF⟩,
   ⟨"LD_F", 0xF029, 0xF0FF⟩, ⟨"LD_B", 0xF033, 0xF0FF⟩, ⟨"LD_MEM_VX", 0xF055, 0xF0FF⟩,
   ⟨"LD_VX_MEM", 0xF065, 0xF0FF⟩]

/-- The 34 rows of R64. -/
def opcodeRows : List OpcodeRow := opcodeRowsLow ++ opcodeRowsHigh

/-- The mnemonic of an instruction's row in spec/opcode_table.json. -/
def Instr.mnemonic : Instr → String
  | .cls => "CLS"
  | .ret => "RET"
  | .jp _ => "JP"
  | .call _ => "CALL"
  | .seImm _ _ => "SE_IMM"
  | .sneImm _ _ => "SNE_IMM"
  | .seReg _ _ => "SE_REG"
  | .ldImm _ _ => "LD_IMM"
  | .addImm _ _ => "ADD_IMM"
  | .ldReg _ _ => "LD_REG"
  | .or _ _ => "OR"
  | .and _ _ => "AND"
  | .xor _ _ => "XOR"
  | .addReg _ _ => "ADD_REG"
  | .sub _ _ => "SUB"
  | .shr _ _ => "SHR"
  | .subn _ _ => "SUBN"
  | .shl _ _ => "SHL"
  | .sneReg _ _ => "SNE_REG"
  | .ldI _ => "LD_I"
  | .jpV0 _ => "JP_V0"
  | .rnd _ _ => "RND"
  | .drw _ _ _ => "DRW"
  | .skp _ => "SKP"
  | .sknp _ => "SKNP"
  | .ldVxDt _ => "LD_VX_DT"
  | .ldVxK _ => "LD_VX_K"
  | .ldDtVx _ => "LD_DT_VX"
  | .ldStVx _ => "LD_ST_VX"
  | .addI _ => "ADD_I"
  | .ldF _ => "LD_F"
  | .ldB _ => "LD_B"
  | .ldMemVx _ => "LD_MEM_VX"
  | .ldVxMem _ => "LD_VX_MEM"

end Sys2Proof
end

