-- ==== Sys2Proof/Machine/State.lean ====
section
/-! DEFINITION. The state of the engine and of the two environment agents whose state a program can
see (R10 to R28), as plain data, and the state after reset (R29 to R31). -/

namespace Sys2Proof.Machine

/-- The seven fatal kinds (R200). -/
inductive FatalKind where
  /-- the word matches no row of R64 (R85) -/
  | unknownOpcode
  /-- `2nnn` with 15 live frames (R101) -/
  | stackOverflow
  /-- `00EE` with no live frame (R102) -/
  | stackUnderflow
  /-- an `I`-relative address above `0xFFF` (R47) -/
  | memoryOutOfRange
  /-- a fetch above `0xFFE` (R83) or a `Bnnn` target above `0xFFF` (R103) -/
  | pcOutOfRange
  /-- `I + V[x]` above `0xFFFF` in `Fx1E` (R141) -/
  | indexOverflow
  /-- a key number above 15 in `Ex9E`, `ExA1` (R180, R181) -/
  | keyOutOfRange
  deriving DecidableEq, Repr

/-- The run status (R25). `info` is R200's: an opcode, an address, a sum or a register value. -/
inductive Status where
  | running
  | stopped
  | halted (kind : FatalKind) (info : Nat)
  deriving DecidableEq, Repr

/-- The memory image as a list of (address, byte) pairs: the bytes that differ from the reset contents,
addresses strictly rising (R40; log 20). -/
abbrev Memory := List Host.Cell

/-- The display sink's pixel buffer: 32 rows of 64 one-bit pixels; bit `c` of row `r` is the pixel in
column `c` (R28, R173). -/
abbrev Screen := Vector (BitVec 64) 32

/-- All the state the spec gives the machine; the last four fields are the model's own and carry the
environment's answers (log 5). -/
structure State where
  /-- the general registers `V[0]` to `V[15]` (R10) -/
  v : Vector Byte 16
  /-- the index register `I` (R16) -/
  i : Word
  /-- the program counter (R18) -/
  pc : Word
  /-- the 16 slots of the call stack, each a call-site address (R21) -/
  stack : Vector Word 16
  /-- the stack pointer: the number of live frames, 0 to 15 (R21, R22) -/
  sp : Fin 16
  /-- the delay timer `DT` (R23) -/
  dt : Byte
  /-- the sound timer `ST` (R23) -/
  st : Byte
  /-- the memory image (R24, R40) -/
  mem : Memory
  /-- the run status (R25) -/
  status : Status
  /-- the call of `step()` in progress, if one is suspended in `Fx0A`, with its destination (R182, R220,
  R222; log 6) -/
  wait : Option RegIdx
  /-- the input source's key state: key `k` is down iff `keys[k]` (R28, R178) -/
  keys : Vector Bool 16
  /-- the display sink's pixel buffer (R28, R173) -/
  screen : Screen
  /-- the answers ready for the coming polls, first one first (log 5) -/
  pollAnswers : List PollAnswer
  /-- how many poll answers were drawn as free values (log 5) -/
  pollDraws : Nat
  /-- the bytes the random source has ready, first one first (log 5) -/
  randomAnswers : List Byte
  /-- how many random bytes were drawn as free values (log 5) -/
  randomDraws : Nat
  deriving DecidableEq, Repr

/-- Why a step does not exist (stuck, not a fatal condition: those are next states). -/
inductive Fault where
  /-- Raised by `step` alone, on an engine that is `Stopped` or `Halted`: "Only a `Running` engine takes
  a cycle" (R25, U16: stuck, no step exists; log 4). Safe. -/
  | engineNotRunning
  /-- Raised by `step` alone, where a call of `step()` is already suspended in `Fx0A`: it has not returned, so
  the host can make no other (R32, R222; log 6). Safe. -/
  | cycleInProgress
  /-- Raised by `Fx0A` where the environment supplies neither `Key(k)` nor `Quit`: no fault of the hardware but
  an infinite wait, in which the cycle has no step ("a model gives the cycle a step only when the environment
  supplies `Key(k)` or `Quit`", R182; log 6). Safe. -/
  | keyWaitUnanswered
  deriving DecidableEq, Repr

/-- Why a step has no meaning. -/
inductive Refusal where
  /-- An instruction without a meaning in this model, raised by `exec` alone; no arm raises it. Safe. -/
  | notModelled (mnemonic : String)
  deriving DecidableEq, Repr

/-- The outcome of a step of this machine. -/
abbrev Outcome := Host.Outcome State Fault Refusal

/-- The state after `initialize` (R29 to R31, R232): memory at its reset contents, so nothing is listed;
the other values are the spec's decision D17 (log 2, log 3, log 5, log 8). -/
def State.reset : State where
  v := Vector.replicate 16 0
  i := 0
  pc := 0x200
  stack := Vector.replicate 16 0
  sp := 0
  dt := 0
  st := 0
  mem := []
  status := .running
  wait := none
  keys := Vector.replicate 16 false
  screen := Vector.replicate 32 0
  pollAnswers := []
  pollDraws := 0
  randomAnswers := []
  randomDraws := 0

end Sys2Proof.Machine
end

