-- ==== Sys2Proof/Machine/Ops.lean ====
section
/-! DEFINITION. The shared operations: memory, registers, the call stack, the timers, and how a handler
ends (R22, R41, R87, R88, R203, R211). -/

namespace Sys2Proof.Machine

/-! ## Memory -/

/-- The byte of the font at an address, if it lies in the font (R29, R50, R233). -/
def fontByte (a : Nat) : Option Byte :=
  if h : Config.fontsetLocation.val ≤ a ∧ a - Config.fontsetLocation.val < Config.fontSize then
    some (Config.fontTable ⟨a - Config.fontsetLocation.val, h.2⟩)
  else none

/-- What an address that memory does not list reads as: its contents after initialization, the font or 0
(R29; log 20). The font lies below `0x200` (R4). -/
def unlistedByte (a : Nat) : Byte :=
  if a < Config.programBase then (fontByte a).getD 0 else 0

/-- The canonical form: addresses strictly rising and inside the memory image, no entry equal to what an
unlisted address reads as (R40; log 20). -/
abbrev Memory.wf (m : Memory) : Prop :=
  (m.Pairwise fun c d => c.1 < d.1) ∧ ∀ c ∈ m, c.1 < Config.memSize ∧ c.2 ≠ unlistedByte c.1

/-- `MemRead(a, 1)` (R41). Every rule checks the address first, so it is used for `a <= 0xFFF` only
(log 19). -/
def Memory.read : Memory → Nat → Byte
  | [], a => unlistedByte a
  | c :: m, a => if c.1 = a then c.2 else Memory.read m a

/-- List a byte at its place, replacing an entry at the same address. -/
def Memory.insert : Memory → Nat → Byte → Memory
  | [], a, b => [(a, b)]
  | c :: m, a, b =>
    if a < c.1 then (a, b) :: c :: m
    else if c.1 = a then (a, b) :: m
    else c :: Memory.insert m a b

/-- Take an address off the list, so that it reads as after initialization. -/
def Memory.erase (m : Memory) (a : Nat) : Memory := m.filter fun c => c.1 != a

/-- `MemWrite(a, 1, b)` (R41), keeping the canonical form. Above `0xFFF` there is no byte to write and
nothing changes; every rule checks the address first (log 19). -/
def Memory.write (m : Memory) (a : Nat) (b : Byte) : Memory :=
  if a < Config.memSize then
    if b = unlistedByte a then m.erase a else m.insert a b
  else m

/-- Write bytes at ascending addresses (R43, R234). -/
def Memory.writeBytes (m : Memory) (a : Nat) : List Byte → Memory
  | [] => m
  | b :: bs => Memory.writeBytes (m.write a b) (a + 1) bs

/-! ## Registers -/

/-- `V[x]` (R10, R11). -/
def State.reg (s : State) (x : RegIdx) : Byte := s.v[x.toNat]'x.isLt

/-- `V[x] <- b` (R10, R11). -/
def State.setReg (s : State) (x : RegIdx) (b : Byte) : State := { s with v := s.v.set x.toNat b x.isLt }

/-- The flag register, `V[0xF]` (R12). -/
abbrev flagReg : RegIdx := 0xF

/-- `I <- w` (R16). -/
def State.setIndex (s : State) (w : Word) : State := { s with i := w }

/-- `pc <- w` (R18). -/
def State.setPc (s : State) (w : Word) : State := { s with pc := w }

/-- `DT <- b` (R23). -/
def State.setDelay (s : State) (b : Byte) : State := { s with dt := b }

/-- `ST <- b` (R23). -/
def State.setSound (s : State) (b : Byte) : State := { s with st := b }

/-- Replace the memory image. -/
def State.setMem (s : State) (m : Memory) : State := { s with mem := m }

/-- Replace the display's pixel buffer. -/
def State.setScreen (s : State) (fb : Screen) : State := { s with screen := fb }

/-- Replace the status. -/
def State.setStatus (s : State) (st : Status) : State := { s with status := st }

/-- Record the call suspended in `Fx0A`, or that there is none (log 6). -/
def State.setWait (s : State) (w : Option RegIdx) : State := { s with wait := w }

/-- Refresh the key state (R177). -/
def State.setKeys (s : State) (ks : Vector Bool 16) : State := { s with keys := ks }

/-- More answers ready for the coming polls, after those already listed (log 5). -/
def State.addPolls (s : State) (as : List PollAnswer) : State :=
  { s with pollAnswers := s.pollAnswers ++ as }

/-! ## The call stack (R22) -/

/-- May a frame be pushed: fewer than `STACK_MAX_DEPTH` are live (R22; log 11). -/
abbrev State.stackHasRoom (s : State) : Prop := s.sp.val < Config.stackMaxDepth

/-- `push(a)`, given room: `stack[sp] <- a`, then `sp <- sp + 1` (R22). -/
def State.push (s : State) (a : Word) (h : s.stackHasRoom) : State :=
  { s with stack := s.stack.set s.sp.val a s.sp.isLt, sp := ⟨s.sp.val + 1, Nat.succ_lt_succ h⟩ }

/-- The stack pointer after a pop of a non-empty stack (R22). -/
def State.spBelow (s : State) : Fin 16 := ⟨s.sp.val - 1, Nat.lt_of_le_of_lt (Nat.sub_le _ _) s.sp.isLt⟩

/-- The value `pop()` gives: the slot below the stack pointer (R22). -/
def State.top (s : State) : Word := s.stack[s.spBelow.val]'s.spBelow.isLt

/-- `pop()`'s effect: `sp <- sp - 1`; the slot keeps its value (R22). -/
def State.pop (s : State) : State := { s with sp := s.spBelow }

/-! ## How a handler ends -/

/-- Taking a fatal condition, the one operation for all seven kinds: `status <- Halted(kind, info)` and
nothing else (R203; log 4, log 9). There is no handler to enter and no return (R206). -/
def raiseFatal (k : FatalKind) (info : Nat) (s : State) : State := s.setStatus (.halted k info)

/-- `return Stop`: `status <- Stopped` and nothing else of the block; no call stays suspended (R211). -/
def stopEngine (s : State) : State := (s.setWait none).setStatus .stopped

/-- Step 6 with the default `next_pc`, `pc + 2` (R87). -/
def advance (s : State) : State := s.setPc (s.pc + 2)

/-- A skip: `next_pc <- pc + 4` if the condition holds, else `pc + 2` (R87, R108). -/
def skipIf (c : Bool) (s : State) : State := if c then s.setPc (s.pc + 4) else advance s

/-- One timer's decrement, stopping at 0 (R160). -/
def countDown (b : Byte) : Byte := if b = 0 then 0 else b - 1

/-- Step 7, the tick (R88, R160). -/
def tick (s : State) : State := (s.setDelay (countDown s.dt)).setSound (countDown s.st)

end Sys2Proof.Machine
end

