-- ==== Sys2Proof/Machine/Operands.lean ====
section
/-! DEFINITION. Every operand form: register operands are `State.reg`; here are the immediates, the
widened address sums and the decimal digits (R62, R103, R141 to R143, R146). -/

namespace Sys2Proof.Machine

/-- An immediate address as a 16-bit value, zero-extended (R49, R62). -/
def addrOperand (nnn : Addr12) : Word := nnn.setWidth 16

/-- The effective address `I + k`, widened (R47, R146). -/
def indexedAddr (s : State) (k : Nat) : Nat := s.i.toNat + k

/-- Is every address up to `I + k` inside the memory image (R47)? -/
abbrev indexedInRange (s : State) (k : Nat) : Prop := indexedAddr s k ≤ 0xFFF

/-- `V[0] + nnn`, widened (R103). -/
def offsetTarget (s : State) (nnn : Addr12) : Nat := (s.reg 0).toNat + nnn.toNat

/-- `I + V[x]`, widened (R141). -/
def indexSum (s : State) (x : RegIdx) : Nat := s.i.toNat + (s.reg x).toNat

/-- `FONTSET_LOCATION + 5*V[x]`, widened, with all 8 bits of `V[x]` (R142). -/
def glyphAddr (b : Byte) : Nat := Config.fontsetLocation.val + 5 * b.toNat

/-- The hundreds digit of a byte (R143). -/
def digitHundreds (b : Byte) : Byte := BitVec.ofNat 8 (b.toNat / 100)

/-- The tens digit of a byte (R143). -/
def digitTens (b : Byte) : Byte := BitVec.ofNat 8 (b.toNat / 10 % 10)

/-- The units digit of a byte (R143). -/
def digitUnits (b : Byte) : Byte := BitVec.ofNat 8 (b.toNat % 10)

/-- The key number a register holds (R180). -/
def keyOperand (b : Byte) : Nibble := b.setWidth 4

end Sys2Proof.Machine
end

