-- ==== Sys2Proof/Machine/Flags.lean ====
section
/-! DEFINITION. The seven values written to the flag register `V[0xF]` (R13), each computed from widened
operands. -/

namespace Sys2Proof.Machine

/-- A truth value as a flag: 1 or 0. -/
def flagOf (c : Bool) : Byte := if c then 1 else 0

/-- `8xy4`: 1 iff the widened sum exceeds 255 (R126). -/
def carryFlag (a b : Byte) : Byte := flagOf (decide (a.toNat + b.toNat > 255))

/-- `8xy5`: 0 iff the widened difference `a - b` is negative (R127). -/
def noBorrowFlag (a b : Byte) : Byte := flagOf (!decide ((a.toNat : Int) - (b.toNat : Int) < 0))

/-- `8xy7`: 1 iff `b > a`, strictly, where `a` is `V[x]` and `b` is `V[y]` (R129). -/
def reverseFlag (a b : Byte) : Byte := flagOf (decide (b.toNat > a.toNat))

/-- `8xy6`: the bit shifted out, 0 or 1 (R128). -/
def shiftRightFlag (a : Byte) : Byte := a &&& 1

/-- `8xyE`: the top bit in place, `0x80` or 0 (R130). -/
def shiftLeftFlag (a : Byte) : Byte := a &&& 0x80

/-- `Fx1E`: 1 iff the sum is outside the 12-bit range (R141). -/
def indexFlag (sum : Nat) : Byte := flagOf (decide (sum > 0xFFF))

/-- `Dxyn`: 1 iff a pixel went from set to unset (R175). -/
def collisionFlag (c : Bool) : Byte := flagOf c

end Sys2Proof.Machine
end

