-- ==== Sys2Proof/Machine/Ports.lean ====
section
/-! DEFINITION. The three environment ports (R171 to R173, R177 to R179, R183) and the instructions that
use them (R170, R175, R180 to R182, R184). -/

namespace Sys2Proof.Machine

/-! ## The display sink (R171 to R173; log 8) -/

/-- The pixel in row `r`, column `c`. -/
def Screen.pixel (fb : Screen) (r : Fin 32) (c : Fin 64) : Bool := fb[r.val].getLsbD c.val

/-- Exclusive or of one pixel with 1. -/
def Screen.flip (fb : Screen) (r : Fin 32) (c : Fin 64) : Screen :=
  fb.set r.val (fb[r.val] ^^^ BitVec.twoPow 64 c.val) r.isLt

/-- The screen row a row number falls on: `yRow mod 32` (R173). -/
def wrapRow (y : Nat) : Fin 32 := ⟨y % 32, Nat.mod_lt _ (by decide)⟩

/-- The screen column a column number falls on: modulo 64 (R173). -/
def wrapCol (x : Nat) : Fin 64 := ⟨x % 64, Nat.mod_lt _ (by decide)⟩

/-- `Display.clear()` (R171). -/
def Screen.cleared : Screen := Vector.replicate 32 0

/-- A pixel buffer and whether some pixel went from set to unset on the way to it. -/
structure Drawn where
  screen : Screen
  collision : Bool
  deriving DecidableEq, Repr

/-- Draw pixel `k` of a sprite row: bit 7 is the leftmost (R173). -/
def Drawn.pixelOf (d : Drawn) (xBase yRow : Nat) (byte : Byte) (k : Nat) : Drawn :=
  if byte.getLsbD (7 - k) then
    ⟨d.screen.flip (wrapRow yRow) (wrapCol (xBase + k)),
     d.collision || d.screen.pixel (wrapRow yRow) (wrapCol (xBase + k))⟩
  else d

/-- The first `k` pixels of a sprite row, left to right (R173). -/
def Drawn.pixelsOf (d : Drawn) (xBase yRow : Nat) (byte : Byte) : Nat → Drawn
  | 0 => d
  | k + 1 => (d.pixelsOf xBase yRow byte k).pixelOf xBase yRow byte k

/-- `Display.drawSpriteByte(xBase, yRow, byte)`, its answer joined to the collision so far (R172, R173). -/
def Drawn.spriteByte (d : Drawn) (xBase yRow : Nat) (byte : Byte) : Drawn := d.pixelsOf xBase yRow byte 8

/-- The first `n` rows of a sprite read from memory at `a`, in ascending order (R175). -/
def Drawn.rows (d : Drawn) (m : Memory) (a xBase yBase : Nat) : Nat → Drawn
  | 0 => d
  | r + 1 => (d.rows m a xBase yBase r).spriteByte xBase (yBase + r) (m.read (a + r))

/-! ## The input source (R177 to R179; log 5, log 6, log 7) -/

/-- The answer of the coming `poll()`: the first one ready, else a free value. -/
def pollAnswer (s : State) : PollAnswer :=
  match s.pollAnswers with
  | a :: _ => a
  | [] => Config.freePoll s.pollDraws

/-- That answer is used up. -/
def consumePoll (s : State) : State :=
  match s.pollAnswers with
  | _ :: rest => { s with pollAnswers := rest }
  | [] => { s with pollDraws := s.pollDraws + 1 }

/-- The state after `poll()`: a `Continue` answer refreshes the key state (R177). -/
def afterPoll (s : State) : State :=
  match pollAnswer s with
  | .proceed keys _ => (consumePoll s).setKeys keys
  | .quit => consumePoll s

/-- Is key `k` down (R178)? -/
def State.isKeyDown (s : State) (k : Nibble) : Bool := s.keys[k.toNat]'k.isLt

/-- Did key `k` go from up in `old` to down in `new` (R179)? -/
def keyWentDown (old new : Vector Bool 16) (k : Nibble) : Bool := new[k.toNat]'k.isLt && !old[k.toNat]'k.isLt

/-- The key the port reports: the first that went down, counted upward and around from `report`, the
environment's choice (R179, U9; log 7). -/
def reportedKey (old new : Vector Bool 16) (report : Nibble) : Option Nibble :=
  ((List.range 16).map fun j => report + BitVec.ofNat 4 j).find? (keyWentDown old new)

/-- What one blocking wait comes to: how it ends, if the environment lets it end, the key state it leaves, the
answers still listed, and the count of free values. -/
structure KeyWait where
  ending : Option KeyWaitEnd
  keys : Vector Bool 16
  answers : List PollAnswer
  draws : Nat
  deriving DecidableEq, Repr

/-- The rest of a wait that no listed answer ends, from the key state `old`. On a key, that key is down at the
end and the others may be either way; otherwise no key went down, so keys can only have been let go. -/
def freeKeyWait (n : Nat) (old : Vector Bool 16) : KeyWait :=
  match Config.freeWait n with
  | some (.key k) => ⟨some (.key k), (Config.freeWaitKeys n).set k.toNat true k.isLt, [], n + 1⟩
  | some .quit => ⟨some .quit, old.zipWith (· && ·) (Config.freeWaitKeys n), [], n + 1⟩
  | none => ⟨none, old.zipWith (· && ·) (Config.freeWaitKeys n), [], n + 1⟩

/-- The polls of one blocking wait, from the key state `old`: `Quit` ends it, a key that goes down ends it, and
any other answer is followed by the next poll (R179; log 6). -/
def waitPolls (n : Nat) (old : Vector Bool 16) : List PollAnswer → KeyWait
  | [] => freeKeyWait n old
  | .quit :: rest => ⟨some .quit, old, rest, n⟩
  | .proceed keys report :: rest =>
    match reportedKey old keys report with
    | some k => ⟨some (.key k), keys, rest, n⟩
    | none => waitPolls n keys rest

/-- `Input.blockingWaitForKeyDown()` (R179). -/
def keyWait (s : State) : KeyWait := waitPolls s.pollDraws s.keys s.pollAnswers

/-- What it returns, if it does. -/
def waitEnd (s : State) : Option KeyWaitEnd := (keyWait s).ending

/-- The state after its polls. -/
def afterWait (s : State) : State :=
  { s with keys := (keyWait s).keys, pollAnswers := (keyWait s).answers, pollDraws := (keyWait s).draws }

/-! ## The random source (R183; log 5, log 17) -/

/-- The byte the random source answers: the first one ready, else a free value. -/
def randomByte (s : State) : Byte :=
  match s.randomAnswers with
  | b :: _ => b
  | [] => Config.freeRandomByte s.randomDraws

/-- That byte is used up. -/
def consumeRandom (s : State) : State :=
  match s.randomAnswers with
  | _ :: rest => { s with randomAnswers := rest }
  | [] => { s with randomDraws := s.randomDraws + 1 }

/-! ## The instructions -/

/-- `00E0`: `Display.clear()` (R170). -/
def execCls (s : State) : Outcome := .next (advance (s.setScreen Screen.cleared))

/-- The sprite `Dxyn` draws, on the buffer as it stands (R175). -/
def spriteDrawn (x y : RegIdx) (n : Nibble) (s : State) : Drawn :=
  Drawn.rows ⟨s.screen, false⟩ s.mem (indexedAddr s 0) (s.reg x).toNat (s.reg y).toNat n.toNat

/-- `Dxyn`: the bounds check unless `n = 0`, then the rows, then the collision flag (R175). -/
def execDrw (x y : RegIdx) (n : Nibble) (s : State) : Outcome :=
  if 0 < n.toNat ∧ 0xFFF < indexedAddr s (n.toNat - 1) then
    .next (raiseFatal .memoryOutOfRange (indexedAddr s (n.toNat - 1)) s)
  else
    .next (advance ((s.setScreen (spriteDrawn x y n s).screen).setReg flagReg
      (collisionFlag (spriteDrawn x y n s).collision)))

/-- A key skip: fatal if `V[x]` is no key number, else the skip (R180, R181). -/
def keySkip (x : RegIdx) (whenDown : Bool) (s : State) : Outcome :=
  if 15 < (s.reg x).toNat then .next (raiseFatal .keyOutOfRange (s.reg x).toNat s)
  else .next (skipIf (s.isKeyDown (keyOperand (s.reg x)) == whenDown) s)

/-- `Ex9E`: skip iff key `V[x]` is down (R180). -/
def execSkp (x : RegIdx) (s : State) : Outcome := keySkip x true s

/-- `ExA1`: skip iff key `V[x]` is up (R181). -/
def execSknp (x : RegIdx) (s : State) : Outcome := keySkip x false s

/-- `Fx0A`: wait within the cycle; `Quit` stops the engine with nothing else changed, a key gives `V[x] <- k`,
and without either the cycle has no step (R182; log 6, log 16). -/
def execLdVxK (x : RegIdx) (s : State) : Outcome :=
  match waitEnd s with
  | some (.key k) => .next (advance (((afterWait s).setWait none).setReg x (k.setWidth 8)))
  | some .quit => .next (stopEngine (afterWait s))
  | none => .fault .keyWaitUnanswered

/-- `Cxnn`: `V[x] <- Random.byte() & nn` (R184). -/
def execRnd (x : RegIdx) (nn : Byte) (s : State) : Outcome :=
  .next (advance ((consumeRandom s).setReg x (randomByte s &&& nn)))

end Sys2Proof.Machine
end

