-- ==== Sys2Proof/Machine/Cycle.lean ====
section
/-! DEFINITION. The frame of every instruction: poll, fetch, decode, dispatch before the handler; the tick
after it (`40_cycle.md`, R80 to R91). -/

namespace Sys2Proof.Machine

/-- What the cycle has come to before the handler runs. -/
inductive CycleStart where
  /-- the cycle ends, or does not exist, without a handler -/
  | ended (o : Outcome)
  /-- the handler of `i` is to run on `s` -/
  | dispatch (i : Instr) (s : State)

/-- Step 2, the fetch: nothing above `0xFFE`, else the two bytes at `pc`, high byte first (R42, R83). -/
def fetchWord (s : State) : Option Word :=
  if 0xFFE < s.pc.toNat then none
  else some (wordOfBytes (s.mem.read s.pc.toNat) (s.mem.read (s.pc.toNat + 1)))

/-- Steps 2 to 4: fetch, decode, dispatch (R83 to R85). -/
def fetchAndDispatch (s : State) : CycleStart :=
  match fetchWord s with
  | none => .ended (.next (raiseFatal .pcOutOfRange s.pc.toNat s))
  | some w =>
    match decodeWord w with
    | none => .ended (.next (raiseFatal .unknownOpcode w.toNat s))
    | some i => .dispatch i s

/-- Step 1, the poll, and then steps 2 to 4 unless it answers `Quit` (R81). -/
def pollAndFetch (s : State) : CycleStart :=
  match pollAnswer s with
  | .quit => .ended (.next (stopEngine (afterPoll s)))
  | .proceed _ _ => fetchAndDispatch (afterPoll s)

/-- A cycle up to its handler. Only a `Running` engine takes one (R25, R80), and only where no earlier call of
`step()` is still suspended in `Fx0A` (R222; log 6). -/
def beginCycle (s : State) : CycleStart :=
  match s.status with
  | .running =>
    match s.wait with
    | none => pollAndFetch s
    | some _ => .ended (.fault .cycleInProgress)
  | .stopped => .ended (.fault .engineNotRunning)
  | .halted _ _ => .ended (.fault .engineNotRunning)

/-- Did the handler end normally: neither `Stop` nor `Fatal` (R86), with no call left suspended? -/
abbrev cycleCompletes (s : State) : Prop := s.status = .running ∧ s.wait = none

/-- Step 7, the tick of a cycle that ends `Continue`, and of no other (R88). -/
def endCycle : Outcome → Outcome
  | .next s => .next (if cycleCompletes s then tick s else s)
  | .fault f => .fault f
  | .refused r => .refused r

end Sys2Proof.Machine
end

