-- ==== Sys2Proof/Machine/Alu.lean ====
section
/-! DEFINITION. Register load, arithmetic, logic and shift (`42_alu.md`, R120 to R132). A handler's
statements run in the written order, each on the state the previous one left (D7; log 10). -/

namespace Sys2Proof.Machine

/-- End a handler normally: step 6 with the default `next_pc` (R87). -/
def finish (s : State) : Outcome := .next (advance s)

/-- `V[x] <- b`, no flag, then the default advance. -/
def writeResult (x : RegIdx) (b : Byte) (s : State) : Outcome := finish (s.setReg x b)

/-- The flag, then the result: with `x = 0xF` the result survives (R15, R132). -/
def flagThenResult (x : RegIdx) (flag result : Byte) (s : State) : Outcome :=
  finish ((s.setReg flagReg flag).setReg x result)

/-- `6xnn`: `V[x] <- nn` (R120). -/
def execLdImm (x : RegIdx) (nn : Byte) (s : State) : Outcome := writeResult x nn s

/-- `7xnn`: `V[x] <- (V[x] + nn) mod 256`, no flag (R121). -/
def execAddImm (x : RegIdx) (nn : Byte) (s : State) : Outcome := writeResult x (s.reg x + nn) s

/-- `8xy0`: `V[x] <- V[y]` (R122). -/
def execLdReg (x y : RegIdx) (s : State) : Outcome := writeResult x (s.reg y) s

/-- `8xy1`: `V[x] <- V[x] | V[y]` (R123). -/
def execOr (x y : RegIdx) (s : State) : Outcome := writeResult x (s.reg x ||| s.reg y) s

/-- `8xy2`: `V[x] <- V[x] & V[y]` (R124). -/
def execAnd (x y : RegIdx) (s : State) : Outcome := writeResult x (s.reg x &&& s.reg y) s

/-- `8xy3`: `V[x] <- V[x] ^ V[y]` (R125). -/
def execXor (x y : RegIdx) (s : State) : Outcome := writeResult x (s.reg x ^^^ s.reg y) s

/-- `8xy4`: the carry, then the sum, both from the values before the instruction (R126). -/
def execAddReg (x y : RegIdx) (s : State) : Outcome :=
  flagThenResult x (carryFlag (s.reg x) (s.reg y)) (s.reg x + s.reg y) s

/-- `8xy5`: the no-borrow flag, then the difference (R127). -/
def execSub (x y : RegIdx) (s : State) : Outcome :=
  flagThenResult x (noBorrowFlag (s.reg x) (s.reg y)) (s.reg x - s.reg y) s

/-- `8xy6`: the bit shifted out, then the shift of the register as it then stands, which for `x = 0xF`
is the flag just written (R128). -/
def execShr (x _y : RegIdx) (s : State) : Outcome :=
  let t := s.setReg flagReg (shiftRightFlag (s.reg x))
  finish (t.setReg x (t.reg x >>> 1))

/-- `8xy7`: the difference, then the strict flag, so the flag survives for `x = 0xF` (R129). -/
def execSubn (x y : RegIdx) (s : State) : Outcome :=
  finish ((s.setReg x (s.reg y - s.reg x)).setReg flagReg (reverseFlag (s.reg x) (s.reg y)))

/-- `8xyE`: the top bit in place, then the shift of the register as it then stands (R130). -/
def execShl (x _y : RegIdx) (s : State) : Outcome :=
  let t := s.setReg flagReg (shiftLeftFlag (s.reg x))
  finish (t.setReg x (t.reg x <<< 1))

end Sys2Proof.Machine
end

