-- ==== Sys2Proof/Machine/ControlFlow.lean ====
section
/-! DEFINITION. Jump, call, return, jump with offset, skips (`41_control_flow.md`, R100 to R108). -/

namespace Sys2Proof.Machine

/-- `1nnn`: `next_pc <- nnn` (R100). -/
def execJp (nnn : Addr12) (s : State) : Outcome := .next (s.setPc (addrOperand nnn))

/-- `2nnn`: push the call-site address, jump; fatal with 15 live frames (R101). -/
def execCall (nnn : Addr12) (s : State) : Outcome :=
  if h : s.stackHasRoom then .next ((s.push s.pc h).setPc (addrOperand nnn))
  else .next (raiseFatal .stackOverflow s.pc.toNat s)

/-- `00EE`: pop, go on after the call; fatal with an empty stack (R102). -/
def execRet (s : State) : Outcome :=
  if s.sp.val = 0 then .next (raiseFatal .stackUnderflow s.pc.toNat s)
  else .next (s.pop.setPc (s.top + 2))

/-- `Bnnn`: the widened target, range-checked, then the jump (R103). -/
def execJpV0 (nnn : Addr12) (s : State) : Outcome :=
  if 0xFFF < offsetTarget s nnn then .next (raiseFatal .pcOutOfRange (offsetTarget s nnn) s)
  else .next (s.setPc (BitVec.ofNat 16 (offsetTarget s nnn)))

/-- `3xnn`: skip iff `V[x] = nn` (R104). -/
def execSeImm (x : RegIdx) (nn : Byte) (s : State) : Outcome := .next (skipIf (s.reg x == nn) s)

/-- `4xnn`: skip iff `V[x] != nn` (R105). -/
def execSneImm (x : RegIdx) (nn : Byte) (s : State) : Outcome := .next (skipIf (s.reg x != nn) s)

/-- `5xy0`: skip iff `V[x] = V[y]` (R106). -/
def execSeReg (x y : RegIdx) (s : State) : Outcome := .next (skipIf (s.reg x == s.reg y) s)

/-- `9xy0`: skip iff `V[x] != V[y]` (R107). -/
def execSneReg (x y : RegIdx) (s : State) : Outcome := .next (skipIf (s.reg x != s.reg y) s)

end Sys2Proof.Machine
end

