-- ==== Sys2Proof/Machine/IndexMemory.lean ====
section
/-! DEFINITION. Index register and memory instructions (`43_index_memory.md`, R140 to R146). -/

namespace Sys2Proof.Machine

/-- The bounds check of R47 before an instruction that touches `I` to `I + k`: fatal with the highest
address, or the instruction's own effect and the default advance. -/
def withIndexed (k : Nat) (s t : State) : Outcome :=
  if indexedInRange s k then .next (advance t)
  else .next (raiseFatal .memoryOutOfRange (indexedAddr s k) s)

/-- Memory after `n` registers `V[0]`, `V[1]`, … are stored at ascending addresses from `a` (R144). -/
def dumpRegs (s : State) (a : Nat) : Nat → Memory
  | 0 => s.mem
  | n + 1 => (dumpRegs s a n).write (a + n) (s.reg (BitVec.ofNat 4 n))

/-- The state after `n` registers `V[0]`, `V[1]`, … are loaded from ascending addresses from `a` (R145). -/
def loadRegs (s : State) (a : Nat) : Nat → State
  | 0 => s
  | n + 1 => (loadRegs s a n).setReg (BitVec.ofNat 4 n) (s.mem.read (a + n))

/-- Memory after the three digits of a byte are stored from `a` (R143). -/
def storeDigits (m : Memory) (a : Nat) (b : Byte) : Memory :=
  ((m.write a (digitHundreds b)).write (a + 1) (digitTens b)).write (a + 2) (digitUnits b)

/-- `Annn`: `I <- nnn` (R140). -/
def execLdI (nnn : Addr12) (s : State) : Outcome := .next (advance (s.setIndex (addrOperand nnn)))

/-- `Fx1E`: the widened sum; fatal above `0xFFFF`; else the flag, then `I`, unmasked (R141). -/
def execAddI (x : RegIdx) (s : State) : Outcome :=
  if 0xFFFF < indexSum s x then .next (raiseFatal .indexOverflow (indexSum s x) s)
  else .next (advance ((s.setReg flagReg (indexFlag (indexSum s x))).setIndex (BitVec.ofNat 16 (indexSum s x))))

/-- `Fx29`: `I <- FONTSET_LOCATION + 5*V[x]` (R142). -/
def execLdF (x : RegIdx) (s : State) : Outcome :=
  .next (advance (s.setIndex (BitVec.ofNat 16 (glyphAddr (s.reg x)))))

/-- `Fx33`: the decimal digits of `V[x]` at `I`, `I+1`, `I+2` (R143). -/
def execLdB (x : RegIdx) (s : State) : Outcome :=
  withIndexed 2 s (s.setMem (storeDigits s.mem (indexedAddr s 0) (s.reg x)))

/-- `Fx55`: `V[0..=x]` to memory at `I`; `I` unchanged (R144). -/
def execLdMemVx (x : RegIdx) (s : State) : Outcome :=
  withIndexed x.toNat s (s.setMem (dumpRegs s (indexedAddr s 0) (x.toNat + 1)))

/-- `Fx65`: `V[0..=x]` from memory at `I`; `I` unchanged (R145). -/
def execLdVxMem (x : RegIdx) (s : State) : Outcome :=
  withIndexed x.toNat s (loadRegs s (indexedAddr s 0) (x.toNat + 1))

end Sys2Proof.Machine
end

