-- ==== Sys2Proof/Machine/Timers.lean ====
section
/-! DEFINITION. The timer instructions (`44_timers.md`, R161 to R163). The countdown is `tick`, which the
cycle adds after the handler (R88, R160). -/

namespace Sys2Proof.Machine

/-- `Fx07`: `V[x] <- DT`, the value before this cycle's tick (R161). -/
def execLdVxDt (x : RegIdx) (s : State) : Outcome := .next (advance (s.setReg x s.dt))

/-- `Fx15`: `DT <- V[x]` (R162). -/
def execLdDtVx (x : RegIdx) (s : State) : Outcome := .next (advance (s.setDelay (s.reg x)))

/-- `Fx18`: `ST <- V[x]` (R163). -/
def execLdStVx (x : RegIdx) (s : State) : Outcome := .next (advance (s.setSound (s.reg x)))

end Sys2Proof.Machine
end

