-- ==== Sys2Proof/Machine/Step.lean ====
section
/-! DEFINITION. The step: one whole cycle, from the poll to the tick (R91, R92). -/

namespace Sys2Proof.Machine

/-- `step()` (R91): begin the cycle, run the handler, end the cycle. -/
def step (s : State) : Host.Outcome State Fault Refusal :=
  match beginCycle s with
  | .ended o => o
  | .dispatch i t => endCycle (exec i t)

/-- The polls with which an instruction can run: the first leaves the key state as it is; for `Fx0A`, two
more let all keys go and press key 0, so that its wait ends (log 21). -/
def pollsFor (keys : Vector Bool 16) : Option Instr → List PollAnswer
  | some (.ldVxK _) =>
    [.proceed keys 0, .proceed (Vector.replicate 16 false) 0,
      .proceed ((Vector.replicate 16 false).set 0 true) 0]
  | _ => [.proceed keys 0]

/-- The state with a table word stored where `step` fetches next, and with what the step needs: a running
engine, no suspended call, and polls that let the instruction run (log 21). -/
def State.withFetchWord (s : State) (nbits w : Nat) : State :=
  { s with
    mem := s.mem.writeBytes s.pc.toNat (tableWordBytes nbits w)
    status := .running
    wait := none
    pollAnswers := pollsFor s.keys (decodeTableWord nbits w) ++ s.pollAnswers }

end Sys2Proof.Machine
end

