-- ==== Sys2Proof/Assembly.lean ====
section
/-! DEFINITION. The assembler syntax of R70, for listings only: how an instruction is written, and the
two directives `DW` and `DB`. No meaning depends on this file (D23; log 28). -/

namespace Sys2Proof

/-- One upper-case hexadecimal digit. -/
def hexDigit (d : Nibble) : String :=
  ((["0", "1", "2", "3", "4", "5", "6", "7"] ++ ["8", "9", "A", "B", "C", "D", "E", "F"])[d.toNat]?).getD ""

/-- A register name `V0` to `VF` (R10, R70). -/
def regName (x : RegIdx) : String := "V" ++ hexDigit x

/-- A byte as a hexadecimal numeral. -/
def hexByte (nn : Byte) : String := "0x" ++ hexDigit (nn.extractLsb' 4 4) ++ hexDigit (nn.extractLsb' 0 4)

/-- An address as a hexadecimal numeral. -/
def hexAddr (a : Addr12) : String :=
  "0x" ++ hexDigit (a.extractLsb' 8 4) ++ hexDigit (a.extractLsb' 4 4) ++ hexDigit (a.extractLsb' 0 4)

/-- Two operands, destination first, separated by a comma (R70). -/
def operands2 (name a b : String) : String := name ++ " " ++ a ++ ", " ++ b

/-- A shift is written with one operand when `y` is 0, and with `Vy` otherwise (R70). -/
def shiftAssembly (name : String) (x y : RegIdx) : String :=
  if y = 0 then name ++ " " ++ regName x else operands2 name (regName x) (regName y)

/-- One instruction as a line of assembly (R64's mnemonic column, R70). -/
def Instr.assembly : Instr → String
  | .cls => "CLS"
  | .ret => "RET"
  | .jp nnn => "JP " ++ hexAddr nnn
  | .call nnn => "CALL " ++ hexAddr nnn
  | .seImm x nn => operands2 "SE" (regName x) (hexByte nn)
  | .sneImm x nn => operands2 "SNE" (regName x) (hexByte nn)
  | .seReg x y => operands2 "SE" (regName x) (regName y)
  | .ldImm x nn => operands2 "LD" (regName x) (hexByte nn)
  | .addImm x nn => operands2 "ADD" (regName x) (hexByte nn)
  | .ldReg x y => operands2 "LD" (regName x) (regName y)
  | .or x y => operands2 "OR" (regName x) (regName y)
  | .and x y => operands2 "AND" (regName x) (regName y)
  | .xor x y => operands2 "XOR" (regName x) (regName y)
  | .addReg x y => operands2 "ADD" (regName x) (regName y)
  | .sub x y => operands2 "SUB" (regName x) (regName y)
  | .shr x y => shiftAssembly "SHR" x y
  | .subn x y => operands2 "SUBN" (regName x) (regName y)
  | .shl x y => shiftAssembly "SHL" x y
  | .sneReg x y => operands2 "SNE" (regName x) (regName y)
  | .ldI nnn => operands2 "LD" "I" (hexAddr nnn)
  | .jpV0 nnn => operands2 "JP" "V0" (hexAddr nnn)
  | .rnd x nn => operands2 "RND" (regName x) (hexByte nn)
  | .drw x y n => operands2 "DRW" (regName x) (regName y) ++ ", " ++ hexDigit n
  | .skp x => "SKP " ++ regName x
  | .sknp x => "SKNP " ++ regName x
  | .ldVxDt x => operands2 "LD" (regName x) "DT"
  | .ldVxK x => operands2 "LD" (regName x) "K"
  | .ldDtVx x => operands2 "LD" "DT" (regName x)
  | .ldStVx x => operands2 "LD" "ST" (regName x)
  | .addI x => operands2 "ADD" "I" (regName x)
  | .ldF x => operands2 "LD" "F" (regName x)
  | .ldB x => operands2 "LD" "B" (regName x)
  | .ldMemVx x => operands2 "LD" "[I]" (regName x)
  | .ldVxMem x => operands2 "LD" (regName x) "[I]"

/-- One line of a listing: an instruction or one of the two directives of R70. -/
inductive AsmLine where
  | instr (i : Instr)
  | dw (w : Nat)
  | db (bytes : List Nat)
  deriving DecidableEq, Repr

/-- The numerals of a directive fit what it emits (R70). -/
def AsmLine.wf : AsmLine → Bool
  | .instr i => i.wf
  | .dw w => decide (w ≤ 0xFFFF)
  | .db bytes => bytes.all fun b => decide (b ≤ 0xFF)

/-- The bytes a line emits: an instruction and `DW` high byte first, `DB` in the order listed (R70). -/
def AsmLine.bytes : AsmLine → List Byte
  | .instr i => encodeBytes i
  | .dw w => bytesOfWord (BitVec.ofNat 16 w)
  | .db bytes => bytes.map (BitVec.ofNat 8)

/-- The image of a listing, refused if a line is ill-formed. -/
def assemble (lines : List AsmLine) : Option (List Byte) :=
  if lines.all AsmLine.wf then some (lines.flatMap AsmLine.bytes) else none

end Sys2Proof
end

