-- ==== Sys2Proof/Machine/Session.lean ====
section
/-! DEFINITION. The host's moves (R32, R174, R201, R219, R222, R230 to R235): what surrounds the cycles.
`none` is a move the host does not have in that state (U18; log 21). -/

namespace Sys2Proof.Machine

/-- No cycle is in progress: no call of `step()` is suspended in `Fx0A` (R182, R222). -/
abbrev State.betweenCycles (s : State) : Prop := s.wait = none

/-- `initialize`: all state to reset values, whatever the status. The key state and the environment's
answers are not the engine's and stay (R28, R232; log 27). -/
def State.initialized (s : State) : State :=
  { State.reset with
    keys := s.keys, pollAnswers := s.pollAnswers, pollDraws := s.pollDraws,
    randomAnswers := s.randomAnswers, randomDraws := s.randomDraws }

/-- Program load: the bytes verbatim from `0x200`, or a rejection that changes nothing (R234). -/
def State.load (s : State) (img : List Byte) : Option State :=
  if imageWf img then some (s.setMem (s.mem.writeBytes Config.programBase img)) else none

/-- How a cycle ended, as `step()` reports it (R80). -/
inductive CycleOutcome where
  | proceed
  | stop
  | fatal (kind : FatalKind) (info : Nat)
  deriving DecidableEq, Repr

/-- The outcome of a cycle, from the state it left (R80, R203, R211); none while its call is suspended. -/
def cycleOutcome (s : State) : Option CycleOutcome :=
  match s.status with
  | .stopped => some .stop
  | .halted k info => some (.fatal k info)
  | .running => if s.wait = none then some .proceed else none

/-- The two classes of fatal condition (R200, R201). -/
inductive FatalClass where
  | decodeFault
  | resourceFault
  deriving DecidableEq, Repr

/-- R200's class column. -/
def FatalKind.fatalClass : FatalKind → FatalClass
  | .unknownOpcode => .decodeFault
  | .stackOverflow => .resourceFault
  | .stackUnderflow => .resourceFault
  | .memoryOutOfRange => .resourceFault
  | .pcOutOfRange => .resourceFault
  | .indexOverflow => .resourceFault
  | .keyOutOfRange => .resourceFault

/-- R200's ordinal column. -/
def FatalKind.ordinal : FatalKind → Nat
  | .unknownOpcode => 1
  | .stackOverflow => 2
  | .stackUnderflow => 3
  | .memoryOutOfRange => 4
  | .pcOutOfRange => 5
  | .indexOverflow => 6
  | .keyOutOfRange => 7

/-- The host's exit code for the end of a run (R219): 0 after `Stop`, 1 after a fatal condition. A run
that goes on has none (log 22). -/
def exitCode : CycleOutcome → Option Nat
  | .proceed => none
  | .stop => some 0
  | .fatal _ _ => some 1

/-- The engine and one fact of the host's session: was a cycle requested since `initialize` (R222)? -/
structure Session where
  machine : State
  started : Bool
  deriving DecidableEq, Repr

/-- The session after `initialize` (R235, boot order 1). -/
def Session.boot : Session := ⟨State.reset, false⟩

/-- The host's moves, complete (R222). -/
inductive HostMove where
  | init
  | load (img : List Byte)
  | step
  | setReg (x : RegIdx) (b : Byte)
  | restore (fb : Screen)
  deriving DecidableEq, Repr

/-- The state in which a call of `step()` is suspended in the wait of `Fx0A`: the poll, the fetch and the
unsuccessful polls of the wait are done, and nothing else of the block has changed (R182, R220; log 6). -/
def suspendedCall (s : State) : Option State :=
  match beginCycle s with
  | .dispatch (.ldVxK x) p => some ((afterWait p).setWait (some x))
  | .dispatch _ _ => none
  | .ended _ => none

/-- The session after the host called `step()` on `s`, given what the step comes to: the call returned; or its
`Fx0A` waits and the call stays in progress; or there was no such call. -/
def Session.ofCall (s : State) : Outcome → Option Session
  | .next t => some ⟨t, true⟩
  | .fault .keyWaitUnanswered => (suspendedCall s).map (⟨·, true⟩)
  | .fault .cycleInProgress => none
  | .fault .engineNotRunning => none
  | .refused _ => none

/-- The effect of a host move, or `none` where the host has no such move: `initialize` and the register
and display moves between cycles only (whatever the status, log 23), `load` before the first cycle only,
`step` while `Running` and between cycles. -/
def Session.apply (t : Session) : HostMove → Option Session
  | .init => if t.machine.betweenCycles then some ⟨t.machine.initialized, false⟩ else none
  | .load img =>
    if t.started = false ∧ t.machine.betweenCycles then (t.machine.load img).map (⟨·, false⟩) else none
  | .step => Session.ofCall t.machine (step t.machine)
  | .setReg x b => if t.machine.betweenCycles then some ⟨t.machine.setReg x b, t.started⟩ else none
  | .restore fb => if t.machine.betweenCycles then some ⟨t.machine.setScreen fb, t.started⟩ else none

/-- The environment's move while a call is suspended in `Fx0A`: it supplies more answers to the wait. The call
ends as its cycle does, with the tick after a key, or it goes on waiting (R182, R222; log 6). -/
def Session.answer (t : Session) (as : List PollAnswer) : Option Session :=
  match t.machine.wait with
  | none => none
  | some x =>
    match endCycle (exec (.ldVxK x) (t.machine.addPolls as)) with
    | .next s => some ⟨s, true⟩
    | .fault _ => some ⟨(afterWait (t.machine.addPolls as)).setWait (some x), true⟩
    | .refused _ => none

/-- Reading `V[x]` (R32), between cycles only. -/
def Session.getReg (t : Session) (x : RegIdx) : Option Byte :=
  if t.machine.betweenCycles then some (t.machine.reg x) else none

/-- `snapshot()`: the whole pixel buffer (R32, R174), between cycles only. -/
def Session.snapshot (t : Session) : Option Screen :=
  if t.machine.betweenCycles then some t.machine.screen else none

end Sys2Proof.Machine
end

