-- ==== Sys2Proof/Safety.lean ====
section
/-! DEFINITION. The terms claims are stated in: the parts of the state and what leaves them alone, the
state in which a cycle fetches a given word, a fatal ending, the pixels a sprite covers, and the
invariant of the machine. -/

namespace Sys2Proof

namespace Machine

/-- The parts of the state, for frame claims: the suspended call apart from the status, each environment
port apart. -/
inductive Part where
  | regs | index | pc | stack | delay | sound | memory | status | wait | keys | screen | polls | randoms
  deriving DecidableEq, Repr

/-- The part reads the same in both states. Memory is compared byte by byte. -/
def kept (s t : State) : Part → Prop
  | .regs => ∀ r, t.reg r = s.reg r
  | .index => t.i = s.i
  | .pc => t.pc = s.pc
  | .stack => t.sp = s.sp ∧ t.stack = s.stack
  | .delay => t.dt = s.dt
  | .sound => t.st = s.st
  | .memory => ∀ a, t.mem.read a = s.mem.read a
  | .status => t.status = s.status
  | .wait => t.wait = s.wait
  | .keys => t.keys = s.keys
  | .screen => t.screen = s.screen
  | .polls => t.pollAnswers = s.pollAnswers ∧ t.pollDraws = s.pollDraws
  | .randoms => t.randomAnswers = s.randomAnswers ∧ t.randomDraws = s.randomDraws

/-- Every part but those listed reads the same in both states. -/
def keptExcept (s t : State) (changed : List Part) : Prop := ∀ p, p ∉ changed → kept s t p

/-- Every general register but those listed reads the same in both states. -/
def regsKept (s t : State) (written : List RegIdx) : Prop := ∀ r, r ∉ written → t.reg r = s.reg r

/-- `t` is `s` halted: the status alone changed (R203). -/
def haltsAs (s t : State) (k : FatalKind) (info : Nat) : Prop :=
  t.status = .halted k info ∧ keptExcept s t [.status]

/-- The next step polls, is told to go on, and fetches the word `w`: the engine runs, no call is
suspended, and the two bytes at `pc` hold `w`, high byte first (R81, R83). -/
structure State.Fetches (s : State) (w : Word) : Prop where
  running : s.status = .running
  betweenCycles : s.wait = none
  polled : ∃ keys report, pollAnswer s = .proceed keys report
  inRange : s.pc.toNat ≤ 0xFFE
  high : s.mem.read s.pc.toNat = w.extractLsb' 8 8
  low : s.mem.read (s.pc.toNat + 1) = w.extractLsb' 0 8

/-- Polls that do not end a wait for a key: from the key state `old` they all answer `Continue`, no key goes
from up to down in any of them, and they leave the key state `new` (R179). -/
def quietPolls (old : Vector Bool 16) : List PollAnswer → Vector Bool 16 → Prop
  | [], new => new = old
  | .quit :: _, _ => False
  | .proceed keys _ :: rest, new =>
    (∀ j : Fin 16, keys[j.val] = true → old[j.val] = true) ∧ quietPolls keys rest new

/-- The sprite of `n` rows at `a`, drawn at column `xb` and row `yb`, has a set bit for the pixel in row
`r`, column `c` (R173, R175). -/
def spriteCovers (m : Memory) (a xb yb n : Nat) (r : Fin 32) (c : Fin 64) : Prop :=
  ∃ j k, j < n ∧ k < 8 ∧ (yb + j) % 32 = r.val ∧ (xb + k) % 64 = c.val ∧
    (m.read (a + j)).getLsbD (7 - k) = true

/-- The invariant of every reachable state: memory in its canonical form (R40); `pc` at most `0x1002`, so
that no arithmetic on it overflows (R20); every live frame a fetchable address (R102) and slot 15 never
written (R22); a call suspended in `Fx0A` only in a running engine, at a fetchable `pc` (R182). -/
structure State.Inv (s : State) : Prop where
  memory : s.mem.wf
  pcBound : s.pc.toNat ≤ 0x1002
  frames : ∀ k : Fin 16, k.val < s.sp.val → s.stack[k.val].toNat ≤ 0xFFE
  lastSlot : s.stack[15] = 0
  suspended : s.wait.isSome = true → s.status = .running ∧ s.pc.toNat ≤ 0xFFE

end Machine

/-- The parts an instruction may change when it neither ends the run nor takes a fatal condition (R11's
table, R16, R19, R21, R23, R45; for `Fx0A`, R182). -/
def Instr.parts : Instr → List Machine.Part
  | .cls => [.screen, .pc]
  | .ret => [.stack, .pc]
  | .jp _ => [.pc]
  | .call _ => [.stack, .pc]
  | .seImm _ _ => [.pc]
  | .sneImm _ _ => [.pc]
  | .seReg _ _ => [.pc]
  | .ldImm _ _ => [.regs, .pc]
  | .addImm _ _ => [.regs, .pc]
  | .ldReg _ _ => [.regs, .pc]
  | .or _ _ => [.regs, .pc]
  | .and _ _ => [.regs, .pc]
  | .xor _ _ => [.regs, .pc]
  | .addReg _ _ => [.regs, .pc]
  | .sub _ _ => [.regs, .pc]
  | .shr _ _ => [.regs, .pc]
  | .subn _ _ => [.regs, .pc]
  | .shl _ _ => [.regs, .pc]
  | .sneReg _ _ => [.pc]
  | .ldI _ => [.index, .pc]
  | .jpV0 _ => [.pc]
  | .rnd _ _ => [.regs, .randoms, .pc]
  | .drw _ _ _ => [.regs, .screen, .pc]
  | .skp _ => [.pc]
  | .sknp _ => [.pc]
  | .ldVxDt _ => [.regs, .pc]
  | .ldVxK _ => [.regs, .wait, .keys, .polls, .pc]
  | .ldDtVx _ => [.delay, .pc]
  | .ldStVx _ => [.sound, .pc]
  | .addI _ => [.regs, .index, .pc]
  | .ldF _ => [.index, .pc]
  | .ldB _ => [.memory, .pc]
  | .ldMemVx _ => [.memory, .pc]
  | .ldVxMem _ => [.regs, .pc]

/-- The general registers an instruction may write (R11's table). -/
def Instr.writes : Instr → List RegIdx
  | .cls => []
  | .ret => []
  | .jp _ => []
  | .call _ => []
  | .seImm _ _ => []
  | .sneImm _ _ => []
  | .seReg _ _ => []
  | .ldImm x _ => [x]
  | .addImm x _ => [x]
  | .ldReg x _ => [x]
  | .or x _ => [x]
  | .and x _ => [x]
  | .xor x _ => [x]
  | .addReg x _ => [0xF, x]
  | .sub x _ => [0xF, x]
  | .shr x _ => [0xF, x]
  | .subn x _ => [x, 0xF]
  | .shl x _ => [0xF, x]
  | .sneReg _ _ => []
  | .ldI _ => []
  | .jpV0 _ => []
  | .rnd x _ => [x]
  | .drw _ _ _ => [0xF]
  | .skp _ => []
  | .sknp _ => []
  | .ldVxDt x => [x]
  | .ldVxK x => [x]
  | .ldDtVx _ => []
  | .ldStVx _ => []
  | .addI _ => [0xF]
  | .ldF _ => []
  | .ldB _ => []
  | .ldMemVx _ => []
  | .ldVxMem x => (List.range (x.toNat + 1)).map (BitVec.ofNat 4)

/-- How many bytes an instruction stores, from `I` upward (R45). -/
def Instr.storedBytes : Instr → Nat
  | .ldB _ => 3
  | .ldMemVx x => x.toNat + 1
  | .cls => 0
  | .ret => 0
  | .jp _ => 0
  | .call _ => 0
  | .seImm _ _ => 0
  | .sneImm _ _ => 0
  | .seReg _ _ => 0
  | .ldImm _ _ => 0
  | .addImm _ _ => 0
  | .ldReg _ _ => 0
  | .or _ _ => 0
  | .and _ _ => 0
  | .xor _ _ => 0
  | .addReg _ _ => 0
  | .sub _ _ => 0
  | .shr _ _ => 0
  | .subn _ _ => 0
  | .shl _ _ => 0
  | .sneReg _ _ => 0
  | .ldI _ => 0
  | .jpV0 _ => 0
  | .rnd _ _ => 0
  | .drw _ _ _ => 0
  | .skp _ => 0
  | .sknp _ => 0
  | .ldVxDt _ => 0
  | .ldVxK _ => 0
  | .ldDtVx _ => 0
  | .ldStVx _ => 0
  | .addI _ => 0
  | .ldF _ => 0
  | .ldVxMem _ => 0

end Sys2Proof
end

