-- ==== Sys2Proof/Certificates/Slice0/Obligations.lean ====
section
/-! DEFINITION. The statements for the provers. An instruction's statement gives its encoding, that `exec`
answers a next state for every operand and state its conditions admit, what that state holds, and what it
leaves alone (`keptExcept`, `regsKept`). Numbers are widened to `Nat`, as the rules write them. -/

open Sys2Proof Sys2Proof.Machine

/-! ## Encoding -/

/-- R60, R61, R62: no bit of an operand is lost between encoding and decoding, in a word and in memory
order. -/
def Obligations.DecodeOfEncodeIsTheInstruction : Prop :=
  ∀ (i : Instr) (rest : List Byte),
    decodeWord (encode i) = some i ∧ decode (encodeBytes i ++ rest) = .ok (i, rest)

/-- R62, R64: a legal word is the encoding of what it decodes to, so every word has one meaning. The
unused `y` of `8xy6` and `8xyE` is kept in the instruction (the model's choice, log 18). -/
def Obligations.EncodeOfDecodeIsTheWord : Prop :=
  ∀ (w : Word) (i : Instr), decodeWord w = some i → encode i = w

/-- R64, R65: a word decodes to the instruction of the row it selects, and to none if it selects no row
(strict matching is the spec's decision D6, log 14). -/
def Obligations.DecoderFollowsTheOpcodeTable : Prop :=
  ∀ w : Word,
    (∀ i, decodeWord w = some i → ∃ r ∈ opcodeRows, r.selects w = true ∧ r.mnemonic = i.mnemonic) ∧
    (decodeWord w = none → ∀ r ∈ opcodeRows, r.selects w = false)

/-- R65: "No pattern may match more than one handler." -/
def Obligations.NoWordSelectsTwoRows : Prop :=
  ∀ (w : Word) (r r' : OpcodeRow), r ∈ opcodeRows → r' ∈ opcodeRows →
    r.selects w = true → r'.selects w = true → r = r'

/-- R66's table of illegal words, one line for each `op1`; every other word is legal. -/
def Obligations.IllegalWordsAreThoseOfTheTable : Prop :=
  ∀ w : Word, decodeWord w = none ↔
    ((op1 w = 0x0 ∧ w ≠ 0x00E0 ∧ w ≠ 0x00EE) ∨
     (op1 w = 0x5 ∧ fieldN w ≠ 0) ∨
     (op1 w = 0x8 ∧ (fieldN w = 0xF ∨ (0x8 ≤ (fieldN w).toNat ∧ (fieldN w).toNat ≤ 0xD))) ∨
     (op1 w = 0x9 ∧ fieldN w ≠ 0) ∨
     (op1 w = 0xE ∧ fieldNN w ≠ 0x9E ∧ fieldNN w ≠ 0xA1) ∨
     (op1 w = 0xF ∧ ∀ b ∈ [0x07, 0x0A, 0x15, 0x18, 0x1E, 0x29, 0x33, 0x55, 0x65], fieldNN w ≠ b))

/-- Words written out from R64's patterns, two instructions of each format, and three of R66's illegal
words. -/
def Obligations.SampleWordsDecodeAsTheTableSays : Prop :=
  decodeWord 0x00E0 = some .cls ∧ decodeWord 0x00EE = some .ret ∧
  decodeWord 0x1204 = some (.jp 0x204) ∧ decodeWord 0xBF01 = some (.jpV0 0xF01) ∧
  decodeWord 0x6A2B = some (.ldImm 0xA 0x2B) ∧ decodeWord 0xC30F = some (.rnd 3 0x0F) ∧
  decodeWord 0x8357 = some (.subn 3 5) ∧ decodeWord 0x9120 = some (.sneReg 1 2) ∧
  decodeWord 0xD01F = some (.drw 0 1 0xF) ∧
  decodeWord 0xF50A = some (.ldVxK 5) ∧ decodeWord 0xE3A1 = some (.sknp 3) ∧
  decode [0xF3, 0x33, 0xAA] = .ok (.ldB 3, [0xAA]) ∧
  decodeWord 0x00E1 = none ∧ decodeWord 0x5121 = none ∧ decodeWord 0x8128 = none

/-! ## The cycle -/

/-- R81, R86, R91, R177: where the bytes at `pc` hold a legal word, the step is the handler of its instruction,
run after the poll, with the end of the cycle around it; the key state the handler sees is the one this cycle's
poll answered, and a listed answer is used up (log 5). -/
def Obligations.StepRunsTheDecodedInstruction : Prop :=
  ∀ (s : State) (w : Word) (i : Instr), s.Fetches w → decodeWord w = some i →
    step s = endCycle (exec i (afterPoll s)) ∧
    (∃ keys report, pollAnswer s = .proceed keys report ∧ (afterPoll s).keys = keys) ∧
    (∀ a rest, s.pollAnswers = a :: rest → pollAnswer s = a ∧ (afterPoll s).pollAnswers = rest) ∧
    keptExcept s (afterPoll s) [.keys, .polls]

/-- R88, R160: a cycle that ends `Continue` decrements both timers by 1 if nonzero, after its handler, and so does
a call suspended in `Fx0A` when its key comes (log 6); a step that does not end `Continue` leaves both alone. -/
def Obligations.TimersTickInCompletedCyclesOnly : Prop :=
  (∀ (s : State) (w : Word) (i : Instr) (t : State), s.Fetches w → decodeWord w = some i →
    exec i (afterPoll s) = .next t → t.status = .running → t.wait = none →
    ∃ u, step s = .next u ∧ u.dt.toNat = t.dt.toNat - 1 ∧ u.st.toNat = t.st.toNat - 1 ∧
      keptExcept t u [.delay, .sound]) ∧
  (∀ (a : Session) (as : List PollAnswer) (x : RegIdx) (t : State), a.machine.wait = some x →
    exec (.ldVxK x) (a.machine.addPolls as) = .next t → t.status = .running →
    ∃ b, a.answer as = some b ∧ b.machine.dt.toNat = t.dt.toNat - 1 ∧
      b.machine.st.toNat = t.st.toNat - 1 ∧ keptExcept t b.machine [.delay, .sound]) ∧
  (∀ s t : State, step s = .next t → t.status ≠ .running → t.dt = s.dt ∧ t.st = s.st)

/-- R80, R91, R92, R182, R246: a step is one whole cycle, so none begins or ends inside one; `Fx0A` takes one, as
long as it waits. Where the environment does not let the wait end, the host's call stays suspended and nothing of
the block changes; more answers end it as its cycle ends, or leave it waiting (that the state carries the
suspended call is the model's, log 6). -/
def Obligations.SuspendedCycleGoesOnWaiting : Prop :=
  (∀ s t : State, step s = .next t → s.wait = none ∧ t.wait = none) ∧
  (∀ a b : Session, a.apply .step = some b →
    (step a.machine = .next b.machine ∧ b.machine.wait = none) ∨
    (step a.machine = .fault .keyWaitUnanswered ∧
      (∃ x, a.machine.Fetches (ofNibblesByte 0xF x 0x0A) ∧ b.machine.wait = some x) ∧
      keptExcept a.machine b.machine [.wait, .keys, .polls])) ∧
  (∀ (a : Session) (as : List PollAnswer) (x : RegIdx), a.machine.wait = some x →
    ∃ b, a.answer as = some b ∧
      ((endCycle (exec (.ldVxK x) (a.machine.addPolls as)) = .next b.machine ∧ b.machine.wait = none) ∨
       (waitEnd (a.machine.addPolls as) = none ∧ b.machine.wait = some x ∧
        keptExcept a.machine b.machine [.keys, .polls])))

/-- R81, R208: `Quit` at the top of a cycle stops the engine, whatever `pc` and memory hold, and nothing of
the block changes. -/
def Obligations.QuitAtThePollStopsWithoutFetching : Prop :=
  ∀ s : State, s.status = .running → s.wait = none → pollAnswer s = .quit →
    ∃ t, step s = .next t ∧ t.status = .stopped ∧ keptExcept s t [.status, .polls]

/-- R48, R83 (decision D4, log 12): a cycle with `pc > 0xFFE` is fatal before it reads anything. -/
def Obligations.FetchBeyondMemoryIsFatal : Prop :=
  ∀ (s : State) (keys : Vector Bool 16) (report : Nibble), s.status = .running → s.wait = none →
    pollAnswer s = .proceed keys report → 0xFFE < s.pc.toNat →
    ∃ t, step s = .next t ∧ t.status = .halted .pcOutOfRange s.pc.toNat ∧
      keptExcept s t [.status, .keys, .polls]

/-- R85, R204: an unmatched word is fatal, carries the raw opcode, and mutates no register, memory or
timer. -/
def Obligations.UnknownOpcodeIsFatalAndChangesNothing : Prop :=
  ∀ (s : State) (w : Word), s.Fetches w → decodeWord w = none →
    ∃ t, step s = .next t ∧ t.status = .halted .unknownOpcode w.toNat ∧
      keptExcept s t [.status, .keys, .polls]

/-- R25, R80, R182 (decision D19, log 4): a running engine between cycles has a step, except where the instruction
is an `Fx0A` for which the environment supplies neither key nor `Quit`, and then it has none; an engine whose call
is suspended takes no other (log 6); a stopped or halted one takes none. -/
def Obligations.OnlyARunningEngineTakesACycle : Prop :=
  (∀ s : State, s.status = .running → s.wait = none →
    ((∃ t, step s = .next t) ∨ step s = .fault .keyWaitUnanswered) ∧
    (step s = .fault .keyWaitUnanswered ↔
      (∃ x, s.Fetches (ofNibblesByte 0xF x 0x0A)) ∧ waitEnd (afterPoll s) = none)) ∧
  (∀ s : State, s.status = .running → s.wait ≠ none → step s = .fault .cycleInProgress) ∧
  (∀ s : State, s.status ≠ .running → step s = .fault .engineNotRunning)

/-! ## Fatal conditions -/

/-- R202, R203 (decision D10, log 9): when an instruction halts a running engine, the status is all that
changed. -/
def Obligations.FatalInstructionChangesOnlyTheStatus : Prop :=
  ∀ (i : Instr) (s t : State) (k : FatalKind) (n : Nat), s.status = .running →
    exec i s = .next t → t.status = .halted k n → haltsAs s t k n

/-- R200, R208: which instruction raises which kind, when, and with what info; `exec` halts a running engine in
no other way (the fetch and the dispatch have statements of their own). The full stack is the spec's decision
D8 (log 11), the memory kind and its info D13 (log 9), the others D11, D12, D14, D28 (log 15). -/
def Obligations.EachInstructionRaisesOnlyItsOwnKind : Prop :=
  ∀ (i : Instr) (s t : State) (k : FatalKind) (n : Nat), s.status = .running →
    exec i s = .next t → t.status = .halted k n →
    (k = .stackOverflow ∧ n = s.pc.toNat ∧ s.sp = 15 ∧ ∃ nnn, i = .call nnn) ∨
    (k = .stackUnderflow ∧ n = s.pc.toNat ∧ s.sp = 0 ∧ i = .ret) ∨
    (k = .pcOutOfRange ∧ 0xFFF < n ∧ ∃ nnn, i = .jpV0 nnn ∧ n = (s.reg 0).toNat + nnn.toNat) ∨
    (k = .indexOverflow ∧ 0xFFFF < n ∧ ∃ x, i = .addI x ∧ n = s.i.toNat + (s.reg x).toNat) ∨
    (k = .memoryOutOfRange ∧ 0xFFF < n ∧
      ((∃ x, i = .ldB x ∧ n = s.i.toNat + 2) ∨
       (∃ x, (i = .ldMemVx x ∨ i = .ldVxMem x) ∧ n = s.i.toNat + x.toNat) ∨
       ∃ x y h, i = .drw x y h ∧ h ≠ 0 ∧ n = s.i.toNat + (h.toNat - 1))) ∨
    (k = .keyOutOfRange ∧ 15 < n ∧ ∃ x, (i = .skp x ∨ i = .sknp x) ∧ n = (s.reg x).toNat)

/-- R47 (decisions D10, D13, log 9): an instruction whose highest address is above `0xFFF` is fatal with that
address and touches nothing. -/
def Obligations.AccessBeyondMemoryIsFatal : Prop :=
  (∀ (x : RegIdx) (s : State), 0xFFF < indexedAddr s 2 →
    ∃ t, exec (.ldB x) s = .next t ∧ haltsAs s t .memoryOutOfRange (indexedAddr s 2)) ∧
  (∀ (x : RegIdx) (s : State), 0xFFF < indexedAddr s x.toNat →
    (∃ t, exec (.ldMemVx x) s = .next t ∧ haltsAs s t .memoryOutOfRange (indexedAddr s x.toNat)) ∧
    ∃ t, exec (.ldVxMem x) s = .next t ∧ haltsAs s t .memoryOutOfRange (indexedAddr s x.toNat)) ∧
  (∀ (x y : RegIdx) (n : Nibble) (s : State), n ≠ 0 → 0xFFF < indexedAddr s (n.toNat - 1) →
    ∃ t, exec (.drw x y n) s = .next t ∧ haltsAs s t .memoryOutOfRange (indexedAddr s (n.toNat - 1)))

/-! ## The whole machine -/

/-- The invariant holds after reset. -/
def Obligations.ResetStateMeetsTheInvariant : Prop := State.Inv State.reset

/-- R20, R22, R40, R102: every step of a state that meets the invariant leads to one that does, reachable or
not. -/
def Obligations.EveryStepKeepsTheInvariant : Prop :=
  ∀ s t : State, s.Inv → step s = .next t → t.Inv

/-- R222: no move of the host breaks the invariant, nor do the environment's answers to a suspended call. -/
def Obligations.EveryHostMoveKeepsTheInvariant : Prop :=
  (∀ (a b : Session) (m : HostMove), a.machine.Inv → a.apply m = some b → b.machine.Inv) ∧
  (∀ (a b : Session) (as : List PollAnswer), a.machine.Inv → a.answer as = some b → b.machine.Inv)

/-- R11, R16, R19, R21, R23, R45: an instruction that neither halts nor stops the engine changes its own parts
of the state and its own registers only. -/
def Obligations.InstructionsChangeOnlyTheirOwnParts : Prop :=
  ∀ (i : Instr) (s t : State), s.status = .running → exec i s = .next t → t.status = .running →
    keptExcept s t i.parts ∧ regsKept s t i.writes

/-- R45, R54: an instruction that stores `k` bytes changes no byte but those from `I` to `I + k - 1`, and one
that stores none changes none. -/
def Obligations.MemoryChangesOnlyWhereBytesAreStored : Prop :=
  ∀ (i : Instr) (s t : State), exec i s = .next t →
    ∀ a, a < indexedAddr s 0 ∨ indexedAddr s i.storedBytes ≤ a → t.mem.read a = s.mem.read a

/-- R40 with the model's list of bytes (log 20): canonical memories that read alike are equal. -/
def Obligations.CanonicalMemoriesThatReadAlikeAreEqual : Prop :=
  ∀ m m' : Memory, m.wf → m'.wf → (∀ a, m.read a = m'.read a) → m = m'

/-! ## Control transfer -/

/-- R100. -/
def Obligations.JumpGoesToItsAddress : Prop :=
  ∀ (nnn : Addr12) (s : State),
    decodeWord (ofNibbleAddr 0x1 nnn) = some (.jp nnn) ∧
    ∃ t, exec (.jp nnn) s = .next t ∧ t.pc.toNat = nnn.toNat ∧ keptExcept s t [.pc]

/-- R101 (decision D8, log 11): with fewer than 15 live frames the call-site address is pushed and the jump
taken; with 15 the call is fatal. -/
def Obligations.CallPushesTheCallSiteAddress : Prop :=
  ∀ (nnn : Addr12) (s : State),
    decodeWord (ofNibbleAddr 0x2 nnn) = some (.call nnn) ∧
    (s.sp.val < 15 →
      ∃ t, exec (.call nnn) s = .next t ∧ t.pc.toNat = nnn.toNat ∧ t.sp.val = s.sp.val + 1 ∧
        (∀ k : Fin 16, t.stack[k.val] = if k = s.sp then s.pc else s.stack[k.val]) ∧
        keptExcept s t [.pc, .stack]) ∧
    (s.sp = 15 → ∃ t, exec (.call nnn) s = .next t ∧ haltsAs s t .stackOverflow s.pc.toNat)

/-- R102: execution resumes after the matching call; with an empty stack the return is fatal. -/
def Obligations.ReturnResumesAfterTheCall : Prop :=
  decodeWord 0x00EE = some .ret ∧
  (∀ (s : State) (k : Fin 16), k.val + 1 = s.sp.val →
    ∃ t, exec .ret s = .next t ∧ t.pc = s.stack[k.val] + 2 ∧ t.sp = k ∧ t.stack = s.stack ∧
      keptExcept s t [.pc, .stack]) ∧
  (∀ s : State, s.sp = 0 → ∃ t, exec .ret s = .next t ∧ haltsAs s t .stackUnderflow s.pc.toNat)

/-- R103 (decision D12, log 15): the widened sum with `V[0]` is the target, if it is an address. -/
def Obligations.JumpWithOffsetAddsRegisterZero : Prop :=
  ∀ (nnn : Addr12) (s : State),
    decodeWord (ofNibbleAddr 0xB nnn) = some (.jpV0 nnn) ∧
    ((s.reg 0).toNat + nnn.toNat ≤ 0xFFF →
      ∃ t, exec (.jpV0 nnn) s = .next t ∧ t.pc.toNat = (s.reg 0).toNat + nnn.toNat ∧
        keptExcept s t [.pc]) ∧
    (0xFFF < (s.reg 0).toNat + nnn.toNat →
      ∃ t, exec (.jpV0 nnn) s = .next t ∧ haltsAs s t .pcOutOfRange ((s.reg 0).toNat + nnn.toNat))

/-- R104, R105: exactly one of the two skips for the same register and byte. -/
def Obligations.ImmediateSkipsCompareARegister : Prop :=
  ∀ (x : RegIdx) (nn : Byte) (s : State),
    decodeWord (ofNibblesByte 0x3 x nn) = some (.seImm x nn) ∧
    decodeWord (ofNibblesByte 0x4 x nn) = some (.sneImm x nn) ∧
    (∃ t, exec (.seImm x nn) s = .next t ∧
      t.pc = (if s.reg x = nn then s.pc + 4 else s.pc + 2) ∧ keptExcept s t [.pc]) ∧
    ∃ t, exec (.sneImm x nn) s = .next t ∧
      t.pc = (if s.reg x = nn then s.pc + 2 else s.pc + 4) ∧ keptExcept s t [.pc]

/-- R106, R107: the two compare by equality, and one register equals itself. -/
def Obligations.RegisterSkipsCompareTwoRegisters : Prop :=
  ∀ (x y : RegIdx) (s : State),
    decodeWord (ofNibbles 0x5 x y 0x0) = some (.seReg x y) ∧
    decodeWord (ofNibbles 0x9 x y 0x0) = some (.sneReg x y) ∧
    (∃ t, exec (.seReg x y) s = .next t ∧
      t.pc = (if s.reg x = s.reg y then s.pc + 4 else s.pc + 2) ∧ keptExcept s t [.pc]) ∧
    ∃ t, exec (.sneReg x y) s = .next t ∧
      t.pc = (if s.reg x = s.reg y then s.pc + 2 else s.pc + 4) ∧ keptExcept s t [.pc]

/-- R101, R102, C2: whatever a subroutine does, calls and returns of its own included, if the stack pointer and
the live frames are at its return what they were after the call, the return goes on after the call with the
stack pointer and the frames from before it. The slots above the live frames may hold anything. -/
def Obligations.ReturnUndoesTheCall : Prop :=
  ∀ (nnn : Addr12) (s : State), s.sp.val < 15 →
    ∃ t, exec (.call nnn) s = .next t ∧
      ∀ t' : State, t'.sp = t.sp → (∀ k : Fin 16, k < t.sp → t'.stack[k.val] = t.stack[k.val]) →
        ∃ u, exec .ret t' = .next u ∧ u.pc = s.pc + 2 ∧ u.sp = s.sp ∧
          ∀ k : Fin 16, k < s.sp → u.stack[k.val] = s.stack[k.val]

/-! ## Load, arithmetic, logic, shift -/

/-- R120. -/
def Obligations.LoadImmediateWritesTheByte : Prop :=
  ∀ (x : RegIdx) (nn : Byte) (s : State),
    decodeWord (ofNibblesByte 0x6 x nn) = some (.ldImm x nn) ∧
    ∃ t, exec (.ldImm x nn) s = .next t ∧ t.reg x = nn ∧ t.pc = s.pc + 2 ∧
      regsKept s t [x] ∧ keptExcept s t [.regs, .pc]

/-- R121: the sum wraps and no flag is written. -/
def Obligations.AddImmediateWrapsWithoutAFlag : Prop :=
  ∀ (x : RegIdx) (nn : Byte) (s : State),
    decodeWord (ofNibblesByte 0x7 x nn) = some (.addImm x nn) ∧
    ∃ t, exec (.addImm x nn) s = .next t ∧
      (t.reg x).toNat = ((s.reg x).toNat + nn.toNat) % 256 ∧ t.pc = s.pc + 2 ∧
      regsKept s t [x] ∧ keptExcept s t [.regs, .pc]

/-- R122 to R125: the copy and the three bitwise operations, none of which defines a flag. -/
def Obligations.CopyAndLogicWriteOneRegister : Prop :=
  ∀ (x y : RegIdx) (s : State),
    decodeWord (ofNibbles 0x8 x y 0x0) = some (.ldReg x y) ∧
    decodeWord (ofNibbles 0x8 x y 0x1) = some (.or x y) ∧
    decodeWord (ofNibbles 0x8 x y 0x2) = some (.and x y) ∧
    decodeWord (ofNibbles 0x8 x y 0x3) = some (.xor x y) ∧
    (∃ t, exec (.ldReg x y) s = .next t ∧ t.reg x = s.reg y ∧ t.pc = s.pc + 2 ∧
      regsKept s t [x] ∧ keptExcept s t [.regs, .pc]) ∧
    (∃ t, exec (.or x y) s = .next t ∧
      (∀ b, (t.reg x).getLsbD b = ((s.reg x).getLsbD b || (s.reg y).getLsbD b)) ∧ t.pc = s.pc + 2 ∧
      regsKept s t [x] ∧ keptExcept s t [.regs, .pc]) ∧
    (∃ t, exec (.and x y) s = .next t ∧
      (∀ b, (t.reg x).getLsbD b = ((s.reg x).getLsbD b && (s.reg y).getLsbD b)) ∧ t.pc = s.pc + 2 ∧
      regsKept s t [x] ∧ keptExcept s t [.regs, .pc]) ∧
    ∃ t, exec (.xor x y) s = .next t ∧
      (∀ b, (t.reg x).getLsbD b = ((s.reg x).getLsbD b ^^ (s.reg y).getLsbD b)) ∧ t.pc = s.pc + 2 ∧
      regsKept s t [x] ∧ keptExcept s t [.regs, .pc]

/-- R126: the wrapped sum in `V[x]`, and the carry in `V[0xF]`; that the sum survives for `x = 0xF` is the
spec's decision D7 (log 10). -/
def Obligations.AddRegistersReportsTheCarry : Prop :=
  ∀ (x y : RegIdx) (s : State),
    decodeWord (ofNibbles 0x8 x y 0x4) = some (.addReg x y) ∧
    ∃ t, exec (.addReg x y) s = .next t ∧
      (t.reg x).toNat = ((s.reg x).toNat + (s.reg y).toNat) % 256 ∧
      (x ≠ 0xF → (t.reg 0xF).toNat = if 255 < (s.reg x).toNat + (s.reg y).toNat then 1 else 0) ∧
      t.pc = s.pc + 2 ∧ regsKept s t [x, 0xF] ∧ keptExcept s t [.regs, .pc]

/-- R127: the wrapped difference in `V[x]`, and 1 in `V[0xF]` iff there was no borrow; that the difference
survives for `x = 0xF` is the spec's decision D7 (log 10). -/
def Obligations.SubtractReportsNoBorrow : Prop :=
  ∀ (x y : RegIdx) (s : State),
    decodeWord (ofNibbles 0x8 x y 0x5) = some (.sub x y) ∧
    ∃ t, exec (.sub x y) s = .next t ∧
      ((t.reg x).toNat : Int) = (((s.reg x).toNat : Int) - (s.reg y).toNat) % 256 ∧
      (x ≠ 0xF → (t.reg 0xF).toNat = if (s.reg y).toNat ≤ (s.reg x).toNat then 1 else 0) ∧
      t.pc = s.pc + 2 ∧ regsKept s t [x, 0xF] ∧ keptExcept s t [.regs, .pc]

/-- R129: the reverse difference and the strict flag; that the flag survives for `x = 0xF` is the spec's
decision D7 (log 10). -/
def Obligations.ReverseSubtractReportsStrictlyGreater : Prop :=
  ∀ (x y : RegIdx) (s : State),
    decodeWord (ofNibbles 0x8 x y 0x7) = some (.subn x y) ∧
    ∃ t, exec (.subn x y) s = .next t ∧
      (x ≠ 0xF → ((t.reg x).toNat : Int) = (((s.reg y).toNat : Int) - (s.reg x).toNat) % 256) ∧
      (t.reg 0xF).toNat = (if (s.reg x).toNat < (s.reg y).toNat then 1 else 0) ∧
      t.pc = s.pc + 2 ∧ regsKept s t [x, 0xF] ∧ keptExcept s t [.regs, .pc]

/-- R128, R67 (for `x = 0xF` the order of writes is the spec's decision D7, log 10): the bit shifted out and
the halved value, whatever `y` is. -/
def Obligations.ShiftRightReportsTheLowBit : Prop :=
  ∀ (x y : RegIdx) (s : State),
    decodeWord (ofNibbles 0x8 x y 0x6) = some (.shr x y) ∧
    ∃ t, exec (.shr x y) s = .next t ∧
      (x ≠ 0xF → (t.reg x).toNat = (s.reg x).toNat / 2 ∧ (t.reg 0xF).toNat = (s.reg x).toNat % 2) ∧
      (x = 0xF → t.reg 0xF = 0) ∧
      t.pc = s.pc + 2 ∧ regsKept s t [x, 0xF] ∧ keptExcept s t [.regs, .pc]

/-- R130, R67 (for `x = 0xF` the order of writes is the spec's decision D7, log 10): the top bit in place,
`0x80` or 0, and the doubled value, whatever `y` is. -/
def Obligations.ShiftLeftReportsTheTopBitInPlace : Prop :=
  ∀ (x y : RegIdx) (s : State),
    decodeWord (ofNibbles 0x8 x y 0xE) = some (.shl x y) ∧
    ∃ t, exec (.shl x y) s = .next t ∧
      (x ≠ 0xF → (t.reg x).toNat = 2 * (s.reg x).toNat % 256 ∧
        (t.reg 0xF).toNat = if 128 ≤ (s.reg x).toNat then 0x80 else 0) ∧
      (x = 0xF → t.reg 0xF = 0) ∧
      t.pc = s.pc + 2 ∧ regsKept s t [x, 0xF] ∧ keptExcept s t [.regs, .pc]

/-- R15, R132 (decision D7, log 10): the final `V[0xF]` when it is the destination of a flag-defining
instruction. -/
def Obligations.FlagRegisterAsDestination : Prop :=
  ∀ (y : RegIdx) (s : State),
    (∃ t, exec (.addReg 0xF y) s = .next t ∧
      (t.reg 0xF).toNat = ((s.reg 0xF).toNat + (s.reg y).toNat) % 256) ∧
    (∃ t, exec (.sub 0xF y) s = .next t ∧
      (t.reg 0xF).toNat = ((s.reg 0xF).toNat + 256 - (s.reg y).toNat) % 256) ∧
    (∃ t, exec (.shr 0xF y) s = .next t ∧ (t.reg 0xF).toNat = 0) ∧
    (∃ t, exec (.subn 0xF y) s = .next t ∧
      (t.reg 0xF).toNat = if (s.reg 0xF).toNat < (s.reg y).toNat then 1 else 0) ∧
    ∃ t, exec (.shl 0xF y) s = .next t ∧ (t.reg 0xF).toNat = 0

/-! ## The index register and memory -/

/-- R140. -/
def Obligations.LoadIndexWritesTheAddress : Prop :=
  ∀ (nnn : Addr12) (s : State),
    decodeWord (ofNibbleAddr 0xA nnn) = some (.ldI nnn) ∧
    ∃ t, exec (.ldI nnn) s = .next t ∧ t.i.toNat = nnn.toNat ∧ t.pc = s.pc + 2 ∧
      keptExcept s t [.index, .pc]

/-- R141 (decision D11, log 15): the sum unmasked, the flag for a sum above `0xFFF`, and a fatal condition for
one that does not fit 16 bits. -/
def Obligations.AddToIndexFlagsTheAddressRange : Prop :=
  ∀ (x : RegIdx) (s : State),
    decodeWord (ofNibblesByte 0xF x 0x1E) = some (.addI x) ∧
    (s.i.toNat + (s.reg x).toNat ≤ 0xFFFF →
      ∃ t, exec (.addI x) s = .next t ∧ t.i.toNat = s.i.toNat + (s.reg x).toNat ∧
        (t.reg 0xF).toNat = (if 0xFFF < s.i.toNat + (s.reg x).toNat then 1 else 0) ∧
        t.pc = s.pc + 2 ∧ regsKept s t [0xF] ∧ keptExcept s t [.regs, .index, .pc]) ∧
    (0xFFFF < s.i.toNat + (s.reg x).toNat →
      ∃ t, exec (.addI x) s = .next t ∧ haltsAs s t .indexOverflow (s.i.toNat + (s.reg x).toNat))

/-- R142: the glyph's address from all 8 bits of `V[x]`; that it is at most `0x6AB` rests on the constraint on
`FONTSET_LOCATION`, the spec's decision D18 (log 1). -/
def Obligations.LoadFontAddressMultipliesByFive : Prop :=
  ∀ (x : RegIdx) (s : State),
    decodeWord (ofNibblesByte 0xF x 0x29) = some (.ldF x) ∧
    ∃ t, exec (.ldF x) s = .next t ∧
      t.i.toNat = Config.fontsetLocation.val + 5 * (s.reg x).toNat ∧ t.i.toNat ≤ 0x6AB ∧
      t.pc = s.pc + 2 ∧ keptExcept s t [.index, .pc]

/-- R143: the three decimal digits at `I`, `I+1`, `I+2`, and every other byte as before. -/
def Obligations.DecimalStoreWritesThreeDigits : Prop :=
  ∀ (x : RegIdx) (s : State),
    decodeWord (ofNibblesByte 0xF x 0x33) = some (.ldB x) ∧
    (indexedAddr s 2 ≤ 0xFFF →
      ∃ t, exec (.ldB x) s = .next t ∧
        (t.mem.read (indexedAddr s 0)).toNat = (s.reg x).toNat / 100 ∧
        (t.mem.read (indexedAddr s 1)).toNat = (s.reg x).toNat / 10 % 10 ∧
        (t.mem.read (indexedAddr s 2)).toNat = (s.reg x).toNat % 10 ∧
        (∀ a, a < indexedAddr s 0 ∨ indexedAddr s 2 < a → t.mem.read a = s.mem.read a) ∧
        t.pc = s.pc + 2 ∧ keptExcept s t [.memory, .pc])

/-- R144: `V[0]` to `V[x]` at ascending addresses from `I`, and every other byte as before; `I` is not
changed. -/
def Obligations.RegisterDumpStoresUpToX : Prop :=
  ∀ (x : RegIdx) (s : State),
    decodeWord (ofNibblesByte 0xF x 0x55) = some (.ldMemVx x) ∧
    (indexedAddr s x.toNat ≤ 0xFFF →
      ∃ t, exec (.ldMemVx x) s = .next t ∧
        (∀ r : RegIdx, r.toNat ≤ x.toNat → t.mem.read (indexedAddr s r.toNat) = s.reg r) ∧
        (∀ a, a < indexedAddr s 0 ∨ indexedAddr s x.toNat < a → t.mem.read a = s.mem.read a) ∧
        t.pc = s.pc + 2 ∧ keptExcept s t [.memory, .pc])

/-- R145: `V[0]` to `V[x]` from ascending addresses from `I`; the registers above `x`, memory and `I` are not
changed. -/
def Obligations.RegisterLoadReadsUpToX : Prop :=
  ∀ (x : RegIdx) (s : State),
    decodeWord (ofNibblesByte 0xF x 0x65) = some (.ldVxMem x) ∧
    (indexedAddr s x.toNat ≤ 0xFFF →
      ∃ t, exec (.ldVxMem x) s = .next t ∧
        (∀ r : RegIdx, t.reg r =
          if r.toNat ≤ x.toNat then s.mem.read (indexedAddr s r.toNat) else s.reg r) ∧
        t.pc = s.pc + 2 ∧ keptExcept s t [.regs, .pc])

/-- R145: "dumping `V[0..=x]` to memory at `I` then loading from the same region reproduces the original
register values exactly", whatever the registers held in between. -/
def Obligations.LoadAfterDumpRestoresTheRegisters : Prop :=
  ∀ (x : RegIdx) (s : State), indexedAddr s x.toNat ≤ 0xFFF →
    ∃ t, exec (.ldMemVx x) s = .next t ∧
      ∀ t' : State, kept t t' .memory → t'.i = s.i →
        ∃ u, exec (.ldVxMem x) t' = .next u ∧ ∀ r : RegIdx, r.toNat ≤ x.toNat → u.reg r = s.reg r

/-- R42, R54: two registers stored over the next instruction are fetched as that instruction, high byte
first. -/
def Obligations.StoredBytesAreFetchedNext : Prop :=
  ∀ (x : RegIdx) (s : State), 1 ≤ x.toNat → s.pc.toNat ≤ 0xFFC → s.i.toNat = s.pc.toNat + 2 →
    indexedAddr s x.toNat ≤ 0xFFF →
    ∃ t, exec (.ldMemVx x) s = .next t ∧
      ∃ w, fetchWord t = some w ∧ w.toNat = (s.reg 0).toNat * 256 + (s.reg 1).toNat

/-! ## Timers -/

/-- R161, R160: `V[x]` gets the value before this cycle's tick, and the tick follows. -/
def Obligations.ReadDelayTimerGivesTheValueBeforeTheTick : Prop :=
  ∀ (x : RegIdx) (s : State),
    decodeWord (ofNibblesByte 0xF x 0x07) = some (.ldVxDt x) ∧
    (∃ t, exec (.ldVxDt x) s = .next t ∧ t.reg x = s.dt ∧ t.pc = s.pc + 2 ∧
      regsKept s t [x] ∧ keptExcept s t [.regs, .pc]) ∧
    (s.Fetches (ofNibblesByte 0xF x 0x07) →
      ∃ u, step s = .next u ∧ u.reg x = s.dt ∧ u.dt.toNat = s.dt.toNat - 1)

/-- R162, and the same of the sound timer (R163): the timer is loaded, and the tick of the same cycle follows.
-/
def Obligations.WriteTimerTicksInTheSameCycle : Prop :=
  ∀ (x : RegIdx) (s : State),
    decodeWord (ofNibblesByte 0xF x 0x15) = some (.ldDtVx x) ∧
    decodeWord (ofNibblesByte 0xF x 0x18) = some (.ldStVx x) ∧
    (∃ t, exec (.ldDtVx x) s = .next t ∧ t.dt = s.reg x ∧ t.pc = s.pc + 2 ∧
      keptExcept s t [.delay, .pc]) ∧
    (∃ t, exec (.ldStVx x) s = .next t ∧ t.st = s.reg x ∧ t.pc = s.pc + 2 ∧
      keptExcept s t [.sound, .pc]) ∧
    (s.Fetches (ofNibblesByte 0xF x 0x15) →
      ∃ u, step s = .next u ∧ u.dt.toNat = (s.reg x).toNat - 1 ∧ u.st.toNat = s.st.toNat - 1) ∧
    (s.Fetches (ofNibblesByte 0xF x 0x18) →
      ∃ u, step s = .next u ∧ u.st.toNat = (s.reg x).toNat - 1 ∧ u.dt.toNat = s.dt.toNat - 1)

/-! ## Ports -/

/-- R170: every pixel is unset and nothing else changes; `V[0xF]` is not written. -/
def Obligations.ClearUnsetsEveryPixel : Prop :=
  decodeWord 0x00E0 = some .cls ∧
  ∀ s : State, ∃ t, exec .cls s = .next t ∧ (∀ r c, t.screen.pixel r c = false) ∧
    t.pc = s.pc + 2 ∧ keptExcept s t [.screen, .pc]

/-- R175 with the reference sink R173 (decision D21, log 8): a pixel the sprite covers is inverted and every
other pixel kept; `V[0xF]` is 1 iff a covered pixel was set; nothing else changes. -/
def Obligations.DrawInvertsTheSpritesPixels : Prop :=
  ∀ (x y : RegIdx) (n : Nibble) (s : State),
    decodeWord (ofNibbles 0xD x y n) = some (.drw x y n) ∧
    ((n = 0 ∨ indexedAddr s (n.toNat - 1) ≤ 0xFFF) →
      ∃ t, exec (.drw x y n) s = .next t ∧
        (∀ r c, spriteCovers s.mem (indexedAddr s 0) (s.reg x).toNat (s.reg y).toNat n.toNat r c →
          t.screen.pixel r c = !s.screen.pixel r c) ∧
        (∀ r c, ¬ spriteCovers s.mem (indexedAddr s 0) (s.reg x).toNat (s.reg y).toNat n.toNat r c →
          t.screen.pixel r c = s.screen.pixel r c) ∧
        (t.reg 0xF = 0 ∨ t.reg 0xF = 1) ∧
        (t.reg 0xF = 1 ↔ ∃ r c, s.screen.pixel r c = true ∧
          spriteCovers s.mem (indexedAddr s 0) (s.reg x).toNat (s.reg y).toNat n.toNat r c) ∧
        t.pc = s.pc + 2 ∧ regsKept s t [0xF] ∧ keptExcept s t [.regs, .screen, .pc])

/-- R180, R181 (decision D14, log 15): the key numbered by `V[x]` decides the skip; a number above 15 is
fatal. -/
def Obligations.KeySkipsConsultTheNumberedKey : Prop :=
  ∀ (x : RegIdx) (s : State),
    decodeWord (ofNibblesByte 0xE x 0x9E) = some (.skp x) ∧
    decodeWord (ofNibblesByte 0xE x 0xA1) = some (.sknp x) ∧
    (∀ k : Fin 16, (s.reg x).toNat = k.val →
      (∃ t, exec (.skp x) s = .next t ∧
        t.pc = (if s.keys[k.val] = true then s.pc + 4 else s.pc + 2) ∧ keptExcept s t [.pc]) ∧
      ∃ t, exec (.sknp x) s = .next t ∧
        t.pc = (if s.keys[k.val] = true then s.pc + 2 else s.pc + 4) ∧ keptExcept s t [.pc]) ∧
    (15 < (s.reg x).toNat →
      (∃ t, exec (.skp x) s = .next t ∧ haltsAs s t .keyOutOfRange (s.reg x).toNat) ∧
      ∃ t, exec (.sknp x) s = .next t ∧ haltsAs s t .keyOutOfRange (s.reg x).toNat)

/-- R179, R182 (decision D16; the choice among several keys is the environment's, log 7): polls in which no key goes
down do not end the wait; a key that then goes from up to down ends it, within the same cycle, and its number is
written; every key that goes down can be the one. -/
def Obligations.KeyWaitWritesAKeyThatWentDown : Prop :=
  ∀ (x : RegIdx) (s : State),
    decodeWord (ofNibblesByte 0xF x 0x0A) = some (.ldVxK x) ∧
    ∀ (quiet rest : List PollAnswer) (before keys : Vector Bool 16) (report : Nibble),
      s.pollAnswers = quiet ++ .proceed keys report :: rest → quietPolls s.keys quiet before →
      (∃ j : Fin 16, before[j.val] = false ∧ keys[j.val] = true) →
      ∃ (t : State) (k : Fin 16), exec (.ldVxK x) s = .next t ∧
        before[k.val] = false ∧ keys[k.val] = true ∧ (t.reg x).toNat = k.val ∧
        (before[report.toNat]'report.isLt = false → keys[report.toNat]'report.isLt = true →
          k.val = report.toNat) ∧
        t.wait = none ∧ t.keys = keys ∧ t.pollAnswers = rest ∧ t.pollDraws = s.pollDraws ∧
        t.pc = s.pc + 2 ∧ regsKept s t [x] ∧ keptExcept s t [.regs, .wait, .keys, .polls, .pc]

/-- R179, R182 (log 5, log 6): where no key goes from up to down in the listed polls, a key held down before the
wait included, they do not end the wait; the free value decides whether it ends at all. Without an end `Fx0A` has
no step. -/
def Obligations.KeyWaitStaysSuspendedWithoutAnEdge : Prop :=
  ∀ (x : RegIdx) (s : State) (after : Vector Bool 16), quietPolls s.keys s.pollAnswers after →
    (Config.freeWait s.pollDraws = none ∧ exec (.ldVxK x) s = .fault .keyWaitUnanswered) ∨
    (∃ t, Config.freeWait s.pollDraws = some .quit ∧ exec (.ldVxK x) s = .next t ∧
      t.status = .stopped ∧ t.wait = none ∧ keptExcept s t [.status, .wait, .keys, .polls]) ∨
    (∃ (t : State) (k : Nibble), Config.freeWait s.pollDraws = some (.key k) ∧
      exec (.ldVxK x) s = .next t ∧ (t.reg x).toNat = k.toNat ∧ t.isKeyDown k = true ∧ t.wait = none ∧
      t.pc = s.pc + 2 ∧ regsKept s t [x] ∧ keptExcept s t [.regs, .wait, .keys, .polls, .pc])

/-- R182, R210, R211 (decision D15, log 16): `Quit` inside the wait, after polls in which no key goes down, stops
the engine with no change to the block but the status. -/
def Obligations.QuitInTheKeyWaitStopsTheEngine : Prop :=
  ∀ (x : RegIdx) (s : State) (quiet rest : List PollAnswer) (before : Vector Bool 16),
    s.pollAnswers = quiet ++ .quit :: rest → quietPolls s.keys quiet before →
    ∃ t, exec (.ldVxK x) s = .next t ∧ t.status = .stopped ∧ t.wait = none ∧ t.keys = before ∧
      t.pollAnswers = rest ∧ keptExcept s t [.status, .wait, .keys, .polls]

/-- R183, R184: the answered byte under the mask, the byte used up, so that the next call gets a fresh one; every
value under the mask is possible, and the mask bounds every result, whatever the free value (decision D20,
log 17). -/
def Obligations.RandomByteIsMasked : Prop :=
  ∀ (x : RegIdx) (nn : Byte) (s : State),
    decodeWord (ofNibblesByte 0xC x nn) = some (.rnd x nn) ∧
    (∃ t b, exec (.rnd x nn) s = .next t ∧ t.reg x = b &&& nn ∧
      (∀ b' rest, s.randomAnswers = b' :: rest → b = b' ∧ t.randomAnswers = rest) ∧
      (s.randomAnswers = [] → b = Config.freeRandomByte s.randomDraws ∧
        t.randomDraws = s.randomDraws + 1) ∧
      (∀ k, nn.getLsbD k = false → (t.reg x).getLsbD k = false) ∧
      t.pc = s.pc + 2 ∧ regsKept s t [x] ∧ keptExcept s t [.regs, .randoms, .pc]) ∧
    ∀ v : Byte, v &&& ~~~nn = 0 → ∃ s' t, keptExcept s s' [.randoms] ∧
      exec (.rnd x nn) s' = .next t ∧ t.reg x = v

/-! ## Reset and the host -/

/-- R29, R233: after initialization memory is 0 except the font. -/
def Obligations.ResetMemoryHoldsTheFontAndZeros : Prop :=
  (∀ j : Fin 80, State.reset.mem.read (Config.fontsetLocation.val + j.val) = Config.fontTable j) ∧
  (∀ a, a < Config.fontsetLocation.val ∨ Config.fontsetLocation.val + 80 ≤ a →
    State.reset.mem.read a = 0)

/-- R30, R31, R232 (the spec's decisions D17, D19, D21, log 2, log 8): what `initialize` leaves, whatever the
state before. -/
def Obligations.InitializeSetsTheResetValues : Prop :=
  ∀ s : State, (∀ r, s.initialized.reg r = 0) ∧ s.initialized.i = 0 ∧ s.initialized.pc.toNat = 0x200 ∧
    s.initialized.sp = 0 ∧ (∀ k : Fin 16, s.initialized.stack[k.val] = 0) ∧ s.initialized.dt = 0 ∧
    s.initialized.st = 0 ∧ s.initialized.status = .running ∧ s.initialized.wait = none ∧
    (∀ r c, s.initialized.screen.pixel r c = false) ∧ kept State.reset s.initialized .memory ∧
    kept s s.initialized .keys ∧ kept s s.initialized .polls ∧ kept s s.initialized .randoms

/-- R234 (decision D24, log 21): an image of at most `0xE00` bytes is stored verbatim from `0x200` and nothing
else changes; a larger one is rejected. -/
def Obligations.ProgramLoadStoresTheImageOrRejectsIt : Prop :=
  ∀ (s : State) (img : List Byte),
    (img.length ≤ 0xE00 →
      ∃ t, s.load img = some t ∧
        (∀ k (h : k < img.length), t.mem.read (0x200 + k) = img[k]) ∧
        (∀ a, a < 0x200 ∨ 0x200 + img.length ≤ a → t.mem.read a = s.mem.read a) ∧
        keptExcept s t [.memory]) ∧
    (0xE00 < img.length → s.load img = none)

/-- R32, R222, R234, R235 (decisions D19, D24, D25, log 21, log 23): the host's table of moves, each with when
the host has it and what it does. Between cycles means that no call of `step()` is suspended in `Fx0A` (log 6), and
every move needs it; `step` needs a running engine, and its call returns or stays suspended. Only `initialize`
makes a stopped or halted engine run again. The environment answers a suspended call, and nothing else. -/
def Obligations.HostMovesAreThoseOfTheTable : Prop :=
  (∀ a : Session,
    ((∃ b, a.apply .init = some b) ↔ a.machine.wait = none) ∧
    ∀ b, a.apply .init = some b → b.machine = a.machine.initialized ∧ b.started = false) ∧
  (∀ (a : Session) (img : List Byte),
    ((∃ b, a.apply (.load img) = some b) ↔
      a.started = false ∧ a.machine.wait = none ∧ img.length ≤ 0xE00) ∧
    ∀ b, a.apply (.load img) = some b → b.started = false ∧
      (∀ k (h : k < img.length), b.machine.mem.read (0x200 + k) = img[k]) ∧
      (∀ c, c < 0x200 ∨ 0x200 + img.length ≤ c → b.machine.mem.read c = a.machine.mem.read c) ∧
      keptExcept a.machine b.machine [.memory]) ∧
  (∀ a : Session,
    ((∃ b, a.apply .step = some b) ↔ a.machine.status = .running ∧ a.machine.wait = none) ∧
    ∀ b, a.apply .step = some b → b.started = true ∧
      (step a.machine = .next b.machine ∨
       (step a.machine = .fault .keyWaitUnanswered ∧ b.machine.wait ≠ none ∧
        keptExcept a.machine b.machine [.wait, .keys, .polls]))) ∧
  (∀ (a : Session) (x : RegIdx) (v : Byte),
    ((∃ b, a.apply (.setReg x v) = some b) ↔ a.machine.wait = none) ∧
    ∀ b, a.apply (.setReg x v) = some b → b.machine.reg x = v ∧ regsKept a.machine b.machine [x] ∧
      keptExcept a.machine b.machine [.regs] ∧ b.started = a.started) ∧
  (∀ (a : Session) (fb : Screen),
    ((∃ b, a.apply (.restore fb) = some b) ↔ a.machine.wait = none) ∧
    ∀ b, a.apply (.restore fb) = some b → b.machine.screen = fb ∧
      keptExcept a.machine b.machine [.screen] ∧ b.started = a.started) ∧
  (∀ (a : Session) (x : RegIdx),
    (a.machine.wait = none → a.getReg x = some (a.machine.reg x) ∧ a.snapshot = some a.machine.screen) ∧
    (a.machine.wait ≠ none → a.getReg x = none ∧ a.snapshot = none)) ∧
  (∀ (a : Session) (as : List PollAnswer), (∃ b, a.answer as = some b) ↔ a.machine.wait ≠ none) ∧
  (∀ (a b : Session) (m : HostMove), a.machine.status ≠ .running → a.apply m = some b →
    b.machine.status = .running → m = .init)

/-- R70 (decision D23, log 28): an assembled listing of instructions is their encodings in order, two bytes
each, and each decodes back. -/
def Obligations.AssembledListingDecodesBack : Prop :=
  ∀ (is : List Instr), ∃ img, assemble (is.map .instr) = some img ∧ img.length = 2 * is.length ∧
    ∀ k (h : k < is.length), ∃ rest, decode (img.drop (2 * k)) = .ok (is[k], rest)
end

