-- ==== Sys2Proof/Laws/Decode.lean ====
section
/-! SUPPORT. The fields of a word as numbers, of a word made of nibbles, bytes and addresses, and of a word
as its fields (R61, R62): what the decoder and the encoder are compared by. -/

namespace Sys2Proof

variable (a b c d : Nibble) (nn : Byte) (nnn : Addr12) (w : Word)

/-! ### Fields as numbers -/

theorem op1_toNat : (op1 w).toNat = w.toNat / 4096 := by
  have := w.isLt
  simp [op1, Nat.shiftRight_eq_div_pow]
  omega

theorem fieldX_toNat : (fieldX w).toNat = w.toNat / 256 % 16 := by
  simp [fieldX, Nat.shiftRight_eq_div_pow]

theorem fieldY_toNat : (fieldY w).toNat = w.toNat / 16 % 16 := by
  simp [fieldY, Nat.shiftRight_eq_div_pow]

theorem fieldN_toNat : (fieldN w).toNat = w.toNat % 16 := by simp [fieldN]

theorem fieldNN_toNat : (fieldNN w).toNat = w.toNat % 256 := by simp [fieldNN]

theorem fieldNNN_toNat : (fieldNNN w).toNat = w.toNat % 4096 := by simp [fieldNNN]

/-! ### Words as numbers -/

/-- Concatenation is the sum with the high part shifted. -/
theorem append_toNat {m n : Nat} (u : BitVec m) (v : BitVec n) :
    (u ++ v).toNat = u.toNat * 2 ^ n + v.toNat := by
  rw [BitVec.toNat_append, ← Nat.shiftLeft_add_eq_or_of_lt v.isLt, Nat.shiftLeft_eq]

theorem ofNibbles_toNat :
    (ofNibbles a b c d).toNat = a.toNat * 4096 + b.toNat * 256 + c.toNat * 16 + d.toNat := by
  have h : (ofNibbles a b c d).toNat = (a ++ b ++ c ++ d).toNat := rfl
  rw [h, append_toNat, append_toNat, append_toNat]
  omega

theorem ofNibblesByte_toNat :
    (ofNibblesByte a b nn).toNat = a.toNat * 4096 + b.toNat * 256 + nn.toNat := by
  have h : (ofNibblesByte a b nn).toNat = (a ++ b ++ nn).toNat := rfl
  rw [h, append_toNat, append_toNat]
  omega

theorem ofNibbleAddr_toNat : (ofNibbleAddr a nnn).toNat = a.toNat * 4096 + nnn.toNat := by
  have h : (ofNibbleAddr a nnn).toNat = (a ++ nnn).toNat := rfl
  rw [h, append_toNat]
  omega

theorem wordOfBytes_toNat (hi lo : Byte) : (wordOfBytes hi lo).toNat = hi.toNat * 256 + lo.toNat := by
  have h : (wordOfBytes hi lo).toNat = (hi ++ lo).toNat := rfl
  rw [h, append_toNat]
  omega

/-- A word is the two bytes memory holds for it, high byte first (R42). -/
theorem wordOfBytes_bytes : wordOfBytes (w.extractLsb' 8 8) (w.extractLsb' 0 8) = w := by
  apply BitVec.eq_of_toNat_eq
  have := w.isLt
  rw [wordOfBytes_toNat]
  simp [Nat.shiftRight_eq_div_pow]
  omega

/-! ### Fields of a word in each format -/

@[simp] theorem op1_ofNibbles : op1 (ofNibbles a b c d) = a := by
  apply BitVec.eq_of_toNat_eq
  rw [op1_toNat, ofNibbles_toNat]
  omega

@[simp] theorem fieldX_ofNibbles : fieldX (ofNibbles a b c d) = b := by
  apply BitVec.eq_of_toNat_eq
  rw [fieldX_toNat, ofNibbles_toNat]
  omega

@[simp] theorem fieldY_ofNibbles : fieldY (ofNibbles a b c d) = c := by
  apply BitVec.eq_of_toNat_eq
  rw [fieldY_toNat, ofNibbles_toNat]
  omega

@[simp] theorem fieldN_ofNibbles : fieldN (ofNibbles a b c d) = d := by
  apply BitVec.eq_of_toNat_eq
  rw [fieldN_toNat, ofNibbles_toNat]
  omega

@[simp] theorem op1_ofNibblesByte : op1 (ofNibblesByte a b nn) = a := by
  apply BitVec.eq_of_toNat_eq
  rw [op1_toNat, ofNibblesByte_toNat]
  omega

@[simp] theorem fieldX_ofNibblesByte : fieldX (ofNibblesByte a b nn) = b := by
  apply BitVec.eq_of_toNat_eq
  rw [fieldX_toNat, ofNibblesByte_toNat]
  omega

@[simp] theorem fieldNN_ofNibblesByte : fieldNN (ofNibblesByte a b nn) = nn := by
  apply BitVec.eq_of_toNat_eq
  rw [fieldNN_toNat, ofNibblesByte_toNat]
  omega

@[simp] theorem op1_ofNibbleAddr : op1 (ofNibbleAddr a nnn) = a := by
  apply BitVec.eq_of_toNat_eq
  rw [op1_toNat, ofNibbleAddr_toNat]
  omega

@[simp] theorem fieldNNN_ofNibbleAddr : fieldNNN (ofNibbleAddr a nnn) = nnn := by
  apply BitVec.eq_of_toNat_eq
  rw [fieldNNN_toNat, ofNibbleAddr_toNat]
  omega

/-! ### A word as its fields -/

theorem ofNibbles_fields : ofNibbles (op1 w) (fieldX w) (fieldY w) (fieldN w) = w := by
  apply BitVec.eq_of_toNat_eq
  rw [ofNibbles_toNat, op1_toNat, fieldX_toNat, fieldY_toNat, fieldN_toNat]
  omega

theorem ofNibblesByte_fields : ofNibblesByte (op1 w) (fieldX w) (fieldNN w) = w := by
  apply BitVec.eq_of_toNat_eq
  rw [ofNibblesByte_toNat, op1_toNat, fieldX_toNat, fieldNN_toNat]
  omega

theorem ofNibbleAddr_fields : ofNibbleAddr (op1 w) (fieldNNN w) = w := by
  apply BitVec.eq_of_toNat_eq
  rw [ofNibbleAddr_toNat, op1_toNat, fieldNNN_toNat]
  omega

/-! ### The masks of the opcode table as fields (R64) -/

theorem ofNibbles_and (a' b' c' d' : Nibble) :
    ofNibbles a b c d &&& ofNibbles a' b' c' d' = ofNibbles (a &&& a') (b &&& b') (c &&& c') (d &&& d') := by
  have h : (a ++ b ++ c ++ d) &&& (a' ++ b' ++ c' ++ d') =
      (a &&& a') ++ (b &&& b') ++ (c &&& c') ++ (d &&& d') := by
    rw [BitVec.and_append, BitVec.and_append, BitVec.and_append]
  exact h

theorem and_nibble_mask (m : Word) (a' b' c' d' : Nibble) (h : m = ofNibbles a' b' c' d') :
    w &&& m = ofNibbles (op1 w &&& a') (fieldX w &&& b') (fieldY w &&& c') (fieldN w &&& d') := by
  subst h
  have := ofNibbles_and (op1 w) (fieldX w) (fieldY w) (fieldN w) a' b' c' d'
  rwa [ofNibbles_fields] at this

theorem nibble_and_F : a &&& 0xF = a := BitVec.and_allOnes

theorem nibble_and_0 : a &&& 0 = 0 := BitVec.and_zero

/-- Mask `0xF000` looks at `op1`. -/
theorem and_F000 : w &&& 0xF000 = ofNibbles (op1 w) 0 0 0 := by
  rw [and_nibble_mask w 0xF000 0xF 0 0 0 (by decide)]
  simp only [nibble_and_F, nibble_and_0]

/-- Mask `0xF00F` looks at `op1` and `op4`. -/
theorem and_F00F : w &&& 0xF00F = ofNibbles (op1 w) 0 0 (fieldN w) := by
  rw [and_nibble_mask w 0xF00F 0xF 0 0 0xF (by decide)]
  simp only [nibble_and_F, nibble_and_0]

/-- Mask `0xF0FF` looks at `op1` and the low byte. -/
theorem and_F0FF : w &&& 0xF0FF = ofNibbles (op1 w) 0 (fieldY w) (fieldN w) := by
  rw [and_nibble_mask w 0xF0FF 0xF 0 0xF 0xF (by decide)]
  simp only [nibble_and_F, nibble_and_0]

/-- Mask `0xFFFF` looks at the whole word. -/
theorem and_FFFF : w &&& 0xFFFF = w := BitVec.and_allOnes

end Sys2Proof
end

