-- ==== Sys2Proof/Laws/Memory.lean ====
section
/-! SUPPORT. The laws of memory (R40, R41): a read after a write, and the canonical form that every memory
operation keeps. -/

namespace Sys2Proof.Machine.Memory

@[simp] theorem read_nil (a : Nat) : Memory.read [] a = unlistedByte a := rfl

theorem read_insert (m : Memory) (a : Nat) (b : Byte) (c : Nat) :
    (m.insert a b).read c = if c = a then b else m.read c := by
  induction m with
  | nil =>
    by_cases h : a = c
    · subst h
      simp [Memory.insert, Memory.read]
    · simp [Memory.insert, Memory.read, h, Ne.symm h]
  | cons d m ih =>
    unfold Memory.insert
    split
    · by_cases h : a = c
      · subst h
        simp [Memory.read]
      · simp [Memory.read, h, Ne.symm h]
    · split
      · next h =>
        subst h
        by_cases h' : d.1 = c
        · subst h'
          simp [Memory.read]
        · simp [Memory.read, h', Ne.symm h']
      · next h =>
        by_cases h' : d.1 = c
        · subst h'
          simp [Memory.read, h]
        · simp [Memory.read, h', ih]

theorem read_erase (m : Memory) (a c : Nat) :
    (m.erase a).read c = if c = a then unlistedByte a else m.read c := by
  induction m with
  | nil =>
    by_cases h : c = a
    · subst h
      simp [Memory.erase]
    · simp [Memory.erase, h]
  | cons d m ih =>
    unfold Memory.erase at ih ⊢
    by_cases hd : d.1 = a
    · subst hd
      by_cases h : c = d.1
      · subst h
        simpa using ih
      · simpa [Memory.read, h, Ne.symm h] using ih
    · by_cases h : d.1 = c
      · subst h
        simp [Memory.read, hd]
      · simp [Memory.read, hd, h, ih]

/-- `MemRead` after `MemWrite`: the byte written inside the memory image, every other byte as before
(R41). -/
theorem read_write (m : Memory) (a : Nat) (b : Byte) (c : Nat) :
    (m.write a b).read c = if c = a ∧ a < Config.memSize then b else m.read c := by
  unfold Memory.write
  by_cases ha : a < Config.memSize
  · simp only [ha, and_true, if_true]
    by_cases hb : b = unlistedByte a
    · rw [if_pos hb, read_erase, hb]
    · rw [if_neg hb, read_insert]
  · rw [if_neg ha, if_neg fun h => ha h.2]

theorem read_write_self (m : Memory) {a : Nat} (b : Byte) (h : a < Config.memSize) :
    (m.write a b).read a = b := by
  rw [read_write, if_pos ⟨rfl, h⟩]

theorem read_write_of_ne (m : Memory) {a c : Nat} (b : Byte) (h : c ≠ a) :
    (m.write a b).read c = m.read c := by
  rw [read_write, if_neg fun e => h e.1]

/-- The bytes written by `writeBytes`, one after the other, and every other byte as before. -/
theorem read_writeBytes (m : Memory) (a : Nat) (bs : List Byte) (h : a + bs.length ≤ Config.memSize)
    (c : Nat) :
    (m.writeBytes a bs).read c =
      if a ≤ c then (bs[c - a]?).getD (m.read c) else m.read c := by
  induction bs generalizing m a with
  | nil => simp [Memory.writeBytes]
  | cons b bs ih =>
    rw [List.length_cons] at h
    rw [Memory.writeBytes, ih _ _ (by omega)]
    have ha : a < Config.memSize := by omega
    rcases Nat.lt_trichotomy c a with hc | hc | hc
    · rw [if_neg (by omega), if_neg (by omega), read_write_of_ne _ _ (by omega)]
    · subst hc
      rw [if_neg (by omega), if_pos (Nat.le_refl _), read_write_self _ _ ha]
      simp
    · have e : c - a = (c - (a + 1)) + 1 := by omega
      rw [if_pos (by omega), if_pos (by omega), read_write_of_ne _ _ (by omega), e]
      simp

/-! ## The canonical form -/

theorem mem_insert_fst {m : Memory} {a : Nat} {b : Byte} {c : Host.Cell} (h : c ∈ m.insert a b) :
    c = (a, b) ∨ c ∈ m := by
  induction m with
  | nil => simpa [Memory.insert] using h
  | cons d m ih =>
    unfold Memory.insert at h
    split at h
    · simpa using h
    · split at h
      · rcases List.mem_cons.1 h with h | h
        · exact .inl h
        · exact .inr (List.mem_cons_of_mem _ h)
      · rcases List.mem_cons.1 h with h | h
        · exact .inr (h ▸ List.mem_cons_self)
        · exact (ih h).imp_right (List.mem_cons_of_mem _)

theorem pairwise_insert {m : Memory} (a : Nat) (b : Byte) (h : m.Pairwise fun c d => c.1 < d.1) :
    (m.insert a b).Pairwise fun c d => c.1 < d.1 := by
  induction m with
  | nil => simp [Memory.insert]
  | cons d m ih =>
    obtain ⟨hd, hm⟩ := List.pairwise_cons.1 h
    unfold Memory.insert
    split
    · next hlt =>
      refine List.pairwise_cons.2 ⟨fun e he => ?_, h⟩
      rcases List.mem_cons.1 he with he | he
      · exact he ▸ hlt
      · exact Nat.lt_trans hlt (hd e he)
    · split
      · next hlt heq =>
        subst heq
        exact List.pairwise_cons.2 ⟨hd, hm⟩
      · next hlt hne =>
        refine List.pairwise_cons.2 ⟨fun e he => ?_, ih hm⟩
        rcases mem_insert_fst he with he | he
        · rw [he]
          show d.1 < a
          omega
        · exact hd e he

/-- The reset memory, with nothing listed, is in the canonical form. -/
theorem wf_nil : Memory.wf [] := ⟨List.Pairwise.nil, fun _ h => absurd h List.not_mem_nil⟩

/-- `MemWrite` keeps the canonical form, at every address. -/
theorem wf_write {m : Memory} (h : m.wf) (a : Nat) (b : Byte) : (m.write a b).wf := by
  unfold Memory.write
  split
  · next ha =>
    split
    · exact ⟨h.1.filter _, fun c hc => h.2 c (List.mem_filter.1 hc).1⟩
    · next hb =>
      refine ⟨pairwise_insert a b h.1, fun c hc => ?_⟩
      rcases mem_insert_fst hc with hc | hc
      · subst hc
        exact ⟨ha, hb⟩
      · exact h.2 c hc
  · exact h

theorem wf_writeBytes {m : Memory} (h : m.wf) (a : Nat) (bs : List Byte) : (m.writeBytes a bs).wf := by
  induction bs generalizing m a with
  | nil => exact h
  | cons b bs ih => exact ih (wf_write h a b) (a + 1)

theorem read_eq_of_mem {m : Memory} (h : m.Pairwise fun c d => c.1 < d.1) {c : Host.Cell} (hc : c ∈ m) :
    m.read c.1 = c.2 := by
  induction m with
  | nil => exact absurd hc List.not_mem_nil
  | cons d m ih =>
    obtain ⟨hd, hm⟩ := List.pairwise_cons.1 h
    rcases List.mem_cons.1 hc with hc | hc
    · subst hc
      simp [Memory.read]
    · have := hd c hc
      rw [Memory.read, if_neg (by omega)]
      exact ih hm hc

end Sys2Proof.Machine.Memory
end

