-- ==== Sys2Proof/Laws/State.lean ====
section
/-! SUPPORT. What each named update of the state leaves in each field: one lemma per field per update, true
by `rfl`, so that no proof unfolds a record update. -/

namespace Sys2Proof.Machine.State

variable (s : State)

/-! ### `setReg` -/

@[simp] theorem setReg_v (x : RegIdx) (b : Byte) : (s.setReg x b).v = s.v.set x.toNat b x.isLt := rfl
@[simp] theorem setReg_i (x : RegIdx) (b : Byte) : (s.setReg x b).i = s.i := rfl
@[simp] theorem setReg_pc (x : RegIdx) (b : Byte) : (s.setReg x b).pc = s.pc := rfl
@[simp] theorem setReg_stack (x : RegIdx) (b : Byte) : (s.setReg x b).stack = s.stack := rfl
@[simp] theorem setReg_sp (x : RegIdx) (b : Byte) : (s.setReg x b).sp = s.sp := rfl
@[simp] theorem setReg_dt (x : RegIdx) (b : Byte) : (s.setReg x b).dt = s.dt := rfl
@[simp] theorem setReg_st (x : RegIdx) (b : Byte) : (s.setReg x b).st = s.st := rfl
@[simp] theorem setReg_mem (x : RegIdx) (b : Byte) : (s.setReg x b).mem = s.mem := rfl
@[simp] theorem setReg_status (x : RegIdx) (b : Byte) : (s.setReg x b).status = s.status := rfl
@[simp] theorem setReg_wait (x : RegIdx) (b : Byte) : (s.setReg x b).wait = s.wait := rfl
@[simp] theorem setReg_keys (x : RegIdx) (b : Byte) : (s.setReg x b).keys = s.keys := rfl
@[simp] theorem setReg_screen (x : RegIdx) (b : Byte) : (s.setReg x b).screen = s.screen := rfl
@[simp] theorem setReg_pollAnswers (x : RegIdx) (b : Byte) : (s.setReg x b).pollAnswers = s.pollAnswers := rfl
@[simp] theorem setReg_pollDraws (x : RegIdx) (b : Byte) : (s.setReg x b).pollDraws = s.pollDraws := rfl
@[simp] theorem setReg_randomAnswers (x : RegIdx) (b : Byte) : (s.setReg x b).randomAnswers = s.randomAnswers := rfl
@[simp] theorem setReg_randomDraws (x : RegIdx) (b : Byte) : (s.setReg x b).randomDraws = s.randomDraws := rfl

/-! ### `setIndex` -/

@[simp] theorem setIndex_v (w : Word) : (s.setIndex w).v = s.v := rfl
@[simp] theorem setIndex_i (w : Word) : (s.setIndex w).i = w := rfl
@[simp] theorem setIndex_pc (w : Word) : (s.setIndex w).pc = s.pc := rfl
@[simp] theorem setIndex_stack (w : Word) : (s.setIndex w).stack = s.stack := rfl
@[simp] theorem setIndex_sp (w : Word) : (s.setIndex w).sp = s.sp := rfl
@[simp] theorem setIndex_dt (w : Word) : (s.setIndex w).dt = s.dt := rfl
@[simp] theorem setIndex_st (w : Word) : (s.setIndex w).st = s.st := rfl
@[simp] theorem setIndex_mem (w : Word) : (s.setIndex w).mem = s.mem := rfl
@[simp] theorem setIndex_status (w : Word) : (s.setIndex w).status = s.status := rfl
@[simp] theorem setIndex_wait (w : Word) : (s.setIndex w).wait = s.wait := rfl
@[simp] theorem setIndex_keys (w : Word) : (s.setIndex w).keys = s.keys := rfl
@[simp] theorem setIndex_screen (w : Word) : (s.setIndex w).screen = s.screen := rfl
@[simp] theorem setIndex_pollAnswers (w : Word) : (s.setIndex w).pollAnswers = s.pollAnswers := rfl
@[simp] theorem setIndex_pollDraws (w : Word) : (s.setIndex w).pollDraws = s.pollDraws := rfl
@[simp] theorem setIndex_randomAnswers (w : Word) : (s.setIndex w).randomAnswers = s.randomAnswers := rfl
@[simp] theorem setIndex_randomDraws (w : Word) : (s.setIndex w).randomDraws = s.randomDraws := rfl

/-! ### `setPc` -/

@[simp] theorem setPc_v (w : Word) : (s.setPc w).v = s.v := rfl
@[simp] theorem setPc_i (w : Word) : (s.setPc w).i = s.i := rfl
@[simp] theorem setPc_pc (w : Word) : (s.setPc w).pc = w := rfl
@[simp] theorem setPc_stack (w : Word) : (s.setPc w).stack = s.stack := rfl
@[simp] theorem setPc_sp (w : Word) : (s.setPc w).sp = s.sp := rfl
@[simp] theorem setPc_dt (w : Word) : (s.setPc w).dt = s.dt := rfl
@[simp] theorem setPc_st (w : Word) : (s.setPc w).st = s.st := rfl
@[simp] theorem setPc_mem (w : Word) : (s.setPc w).mem = s.mem := rfl
@[simp] theorem setPc_status (w : Word) : (s.setPc w).status = s.status := rfl
@[simp] theorem setPc_wait (w : Word) : (s.setPc w).wait = s.wait := rfl
@[simp] theorem setPc_keys (w : Word) : (s.setPc w).keys = s.keys := rfl
@[simp] theorem setPc_screen (w : Word) : (s.setPc w).screen = s.screen := rfl
@[simp] theorem setPc_pollAnswers (w : Word) : (s.setPc w).pollAnswers = s.pollAnswers := rfl
@[simp] theorem setPc_pollDraws (w : Word) : (s.setPc w).pollDraws = s.pollDraws := rfl
@[simp] theorem setPc_randomAnswers (w : Word) : (s.setPc w).randomAnswers = s.randomAnswers := rfl
@[simp] theorem setPc_randomDraws (w : Word) : (s.setPc w).randomDraws = s.randomDraws := rfl

/-! ### `setDelay` -/

@[simp] theorem setDelay_v (b : Byte) : (s.setDelay b).v = s.v := rfl
@[simp] theorem setDelay_i (b : Byte) : (s.setDelay b).i = s.i := rfl
@[simp] theorem setDelay_pc (b : Byte) : (s.setDelay b).pc = s.pc := rfl
@[simp] theorem setDelay_stack (b : Byte) : (s.setDelay b).stack = s.stack := rfl
@[simp] theorem setDelay_sp (b : Byte) : (s.setDelay b).sp = s.sp := rfl
@[simp] theorem setDelay_dt (b : Byte) : (s.setDelay b).dt = b := rfl
@[simp] theorem setDelay_st (b : Byte) : (s.setDelay b).st = s.st := rfl
@[simp] theorem setDelay_mem (b : Byte) : (s.setDelay b).mem = s.mem := rfl
@[simp] theorem setDelay_status (b : Byte) : (s.setDelay b).status = s.status := rfl
@[simp] theorem setDelay_wait (b : Byte) : (s.setDelay b).wait = s.wait := rfl
@[simp] theorem setDelay_keys (b : Byte) : (s.setDelay b).keys = s.keys := rfl
@[simp] theorem setDelay_screen (b : Byte) : (s.setDelay b).screen = s.screen := rfl
@[simp] theorem setDelay_pollAnswers (b : Byte) : (s.setDelay b).pollAnswers = s.pollAnswers := rfl
@[simp] theorem setDelay_pollDraws (b : Byte) : (s.setDelay b).pollDraws = s.pollDraws := rfl
@[simp] theorem setDelay_randomAnswers (b : Byte) : (s.setDelay b).randomAnswers = s.randomAnswers := rfl
@[simp] theorem setDelay_randomDraws (b : Byte) : (s.setDelay b).randomDraws = s.randomDraws := rfl

/-! ### `setSound` -/

@[simp] theorem setSound_v (b : Byte) : (s.setSound b).v = s.v := rfl
@[simp] theorem setSound_i (b : Byte) : (s.setSound b).i = s.i := rfl
@[simp] theorem setSound_pc (b : Byte) : (s.setSound b).pc = s.pc := rfl
@[simp] theorem setSound_stack (b : Byte) : (s.setSound b).stack = s.stack := rfl
@[simp] theorem setSound_sp (b : Byte) : (s.setSound b).sp = s.sp := rfl
@[simp] theorem setSound_dt (b : Byte) : (s.setSound b).dt = s.dt := rfl
@[simp] theorem setSound_st (b : Byte) : (s.setSound b).st = b := rfl
@[simp] theorem setSound_mem (b : Byte) : (s.setSound b).mem = s.mem := rfl
@[simp] theorem setSound_status (b : Byte) : (s.setSound b).status = s.status := rfl
@[simp] theorem setSound_wait (b : Byte) : (s.setSound b).wait = s.wait := rfl
@[simp] theorem setSound_keys (b : Byte) : (s.setSound b).keys = s.keys := rfl
@[simp] theorem setSound_screen (b : Byte) : (s.setSound b).screen = s.screen := rfl
@[simp] theorem setSound_pollAnswers (b : Byte) : (s.setSound b).pollAnswers = s.pollAnswers := rfl
@[simp] theorem setSound_pollDraws (b : Byte) : (s.setSound b).pollDraws = s.pollDraws := rfl
@[simp] theorem setSound_randomAnswers (b : Byte) : (s.setSound b).randomAnswers = s.randomAnswers := rfl
@[simp] theorem setSound_randomDraws (b : Byte) : (s.setSound b).randomDraws = s.randomDraws := rfl

/-! ### `setMem` -/

@[simp] theorem setMem_v (m : Memory) : (s.setMem m).v = s.v := rfl
@[simp] theorem setMem_i (m : Memory) : (s.setMem m).i = s.i := rfl
@[simp] theorem setMem_pc (m : Memory) : (s.setMem m).pc = s.pc := rfl
@[simp] theorem setMem_stack (m : Memory) : (s.setMem m).stack = s.stack := rfl
@[simp] theorem setMem_sp (m : Memory) : (s.setMem m).sp = s.sp := rfl
@[simp] theorem setMem_dt (m : Memory) : (s.setMem m).dt = s.dt := rfl
@[simp] theorem setMem_st (m : Memory) : (s.setMem m).st = s.st := rfl
@[simp] theorem setMem_mem (m : Memory) : (s.setMem m).mem = m := rfl
@[simp] theorem setMem_status (m : Memory) : (s.setMem m).status = s.status := rfl
@[simp] theorem setMem_wait (m : Memory) : (s.setMem m).wait = s.wait := rfl
@[simp] theorem setMem_keys (m : Memory) : (s.setMem m).keys = s.keys := rfl
@[simp] theorem setMem_screen (m : Memory) : (s.setMem m).screen = s.screen := rfl
@[simp] theorem setMem_pollAnswers (m : Memory) : (s.setMem m).pollAnswers = s.pollAnswers := rfl
@[simp] theorem setMem_pollDraws (m : Memory) : (s.setMem m).pollDraws = s.pollDraws := rfl
@[simp] theorem setMem_randomAnswers (m : Memory) : (s.setMem m).randomAnswers = s.randomAnswers := rfl
@[simp] theorem setMem_randomDraws (m : Memory) : (s.setMem m).randomDraws = s.randomDraws := rfl

/-! ### `setScreen` -/

@[simp] theorem setScreen_v (fb : Screen) : (s.setScreen fb).v = s.v := rfl
@[simp] theorem setScreen_i (fb : Screen) : (s.setScreen fb).i = s.i := rfl
@[simp] theorem setScreen_pc (fb : Screen) : (s.setScreen fb).pc = s.pc := rfl
@[simp] theorem setScreen_stack (fb : Screen) : (s.setScreen fb).stack = s.stack := rfl
@[simp] theorem setScreen_sp (fb : Screen) : (s.setScreen fb).sp = s.sp := rfl
@[simp] theorem setScreen_dt (fb : Screen) : (s.setScreen fb).dt = s.dt := rfl
@[simp] theorem setScreen_st (fb : Screen) : (s.setScreen fb).st = s.st := rfl
@[simp] theorem setScreen_mem (fb : Screen) : (s.setScreen fb).mem = s.mem := rfl
@[simp] theorem setScreen_status (fb : Screen) : (s.setScreen fb).status = s.status := rfl
@[simp] theorem setScreen_wait (fb : Screen) : (s.setScreen fb).wait = s.wait := rfl
@[simp] theorem setScreen_keys (fb : Screen) : (s.setScreen fb).keys = s.keys := rfl
@[simp] theorem setScreen_screen (fb : Screen) : (s.setScreen fb).screen = fb := rfl
@[simp] theorem setScreen_pollAnswers (fb : Screen) : (s.setScreen fb).pollAnswers = s.pollAnswers := rfl
@[simp] theorem setScreen_pollDraws (fb : Screen) : (s.setScreen fb).pollDraws = s.pollDraws := rfl
@[simp] theorem setScreen_randomAnswers (fb : Screen) : (s.setScreen fb).randomAnswers = s.randomAnswers := rfl
@[simp] theorem setScreen_randomDraws (fb : Screen) : (s.setScreen fb).randomDraws = s.randomDraws := rfl

/-! ### `setStatus` -/

@[simp] theorem setStatus_v (u : Status) : (s.setStatus u).v = s.v := rfl
@[simp] theorem setStatus_i (u : Status) : (s.setStatus u).i = s.i := rfl
@[simp] theorem setStatus_pc (u : Status) : (s.setStatus u).pc = s.pc := rfl
@[simp] theorem setStatus_stack (u : Status) : (s.setStatus u).stack = s.stack := rfl
@[simp] theorem setStatus_sp (u : Status) : (s.setStatus u).sp = s.sp := rfl
@[simp] theorem setStatus_dt (u : Status) : (s.setStatus u).dt = s.dt := rfl
@[simp] theorem setStatus_st (u : Status) : (s.setStatus u).st = s.st := rfl
@[simp] theorem setStatus_mem (u : Status) : (s.setStatus u).mem = s.mem := rfl
@[simp] theorem setStatus_status (u : Status) : (s.setStatus u).status = u := rfl
@[simp] theorem setStatus_wait (u : Status) : (s.setStatus u).wait = s.wait := rfl
@[simp] theorem setStatus_keys (u : Status) : (s.setStatus u).keys = s.keys := rfl
@[simp] theorem setStatus_screen (u : Status) : (s.setStatus u).screen = s.screen := rfl
@[simp] theorem setStatus_pollAnswers (u : Status) : (s.setStatus u).pollAnswers = s.pollAnswers := rfl
@[simp] theorem setStatus_pollDraws (u : Status) : (s.setStatus u).pollDraws = s.pollDraws := rfl
@[simp] theorem setStatus_randomAnswers (u : Status) : (s.setStatus u).randomAnswers = s.randomAnswers := rfl
@[simp] theorem setStatus_randomDraws (u : Status) : (s.setStatus u).randomDraws = s.randomDraws := rfl

/-! ### `setWait` -/

@[simp] theorem setWait_v (w : Option RegIdx) : (s.setWait w).v = s.v := rfl
@[simp] theorem setWait_i (w : Option RegIdx) : (s.setWait w).i = s.i := rfl
@[simp] theorem setWait_pc (w : Option RegIdx) : (s.setWait w).pc = s.pc := rfl
@[simp] theorem setWait_stack (w : Option RegIdx) : (s.setWait w).stack = s.stack := rfl
@[simp] theorem setWait_sp (w : Option RegIdx) : (s.setWait w).sp = s.sp := rfl
@[simp] theorem setWait_dt (w : Option RegIdx) : (s.setWait w).dt = s.dt := rfl
@[simp] theorem setWait_st (w : Option RegIdx) : (s.setWait w).st = s.st := rfl
@[simp] theorem setWait_mem (w : Option RegIdx) : (s.setWait w).mem = s.mem := rfl
@[simp] theorem setWait_status (w : Option RegIdx) : (s.setWait w).status = s.status := rfl
@[simp] theorem setWait_wait (w : Option RegIdx) : (s.setWait w).wait = w := rfl
@[simp] theorem setWait_keys (w : Option RegIdx) : (s.setWait w).keys = s.keys := rfl
@[simp] theorem setWait_screen (w : Option RegIdx) : (s.setWait w).screen = s.screen := rfl
@[simp] theorem setWait_pollAnswers (w : Option RegIdx) : (s.setWait w).pollAnswers = s.pollAnswers := rfl
@[simp] theorem setWait_pollDraws (w : Option RegIdx) : (s.setWait w).pollDraws = s.pollDraws := rfl
@[simp] theorem setWait_randomAnswers (w : Option RegIdx) : (s.setWait w).randomAnswers = s.randomAnswers := rfl
@[simp] theorem setWait_randomDraws (w : Option RegIdx) : (s.setWait w).randomDraws = s.randomDraws := rfl

/-! ### `setKeys` -/

@[simp] theorem setKeys_v (ks : Vector Bool 16) : (s.setKeys ks).v = s.v := rfl
@[simp] theorem setKeys_i (ks : Vector Bool 16) : (s.setKeys ks).i = s.i := rfl
@[simp] theorem setKeys_pc (ks : Vector Bool 16) : (s.setKeys ks).pc = s.pc := rfl
@[simp] theorem setKeys_stack (ks : Vector Bool 16) : (s.setKeys ks).stack = s.stack := rfl
@[simp] theorem setKeys_sp (ks : Vector Bool 16) : (s.setKeys ks).sp = s.sp := rfl
@[simp] theorem setKeys_dt (ks : Vector Bool 16) : (s.setKeys ks).dt = s.dt := rfl
@[simp] theorem setKeys_st (ks : Vector Bool 16) : (s.setKeys ks).st = s.st := rfl
@[simp] theorem setKeys_mem (ks : Vector Bool 16) : (s.setKeys ks).mem = s.mem := rfl
@[simp] theorem setKeys_status (ks : Vector Bool 16) : (s.setKeys ks).status = s.status := rfl
@[simp] theorem setKeys_wait (ks : Vector Bool 16) : (s.setKeys ks).wait = s.wait := rfl
@[simp] theorem setKeys_keys (ks : Vector Bool 16) : (s.setKeys ks).keys = ks := rfl
@[simp] theorem setKeys_screen (ks : Vector Bool 16) : (s.setKeys ks).screen = s.screen := rfl
@[simp] theorem setKeys_pollAnswers (ks : Vector Bool 16) : (s.setKeys ks).pollAnswers = s.pollAnswers := rfl
@[simp] theorem setKeys_pollDraws (ks : Vector Bool 16) : (s.setKeys ks).pollDraws = s.pollDraws := rfl
@[simp] theorem setKeys_randomAnswers (ks : Vector Bool 16) : (s.setKeys ks).randomAnswers = s.randomAnswers := rfl
@[simp] theorem setKeys_randomDraws (ks : Vector Bool 16) : (s.setKeys ks).randomDraws = s.randomDraws := rfl

/-! ### `push` -/

@[simp] theorem push_v (a : Word) (h : s.stackHasRoom) : (s.push a h).v = s.v := rfl
@[simp] theorem push_i (a : Word) (h : s.stackHasRoom) : (s.push a h).i = s.i := rfl
@[simp] theorem push_pc (a : Word) (h : s.stackHasRoom) : (s.push a h).pc = s.pc := rfl
@[simp] theorem push_stack (a : Word) (h : s.stackHasRoom) : (s.push a h).stack = s.stack.set s.sp.val a s.sp.isLt := rfl
@[simp] theorem push_sp (a : Word) (h : s.stackHasRoom) : (s.push a h).sp = ⟨s.sp.val + 1, Nat.succ_lt_succ h⟩ := rfl
@[simp] theorem push_dt (a : Word) (h : s.stackHasRoom) : (s.push a h).dt = s.dt := rfl
@[simp] theorem push_st (a : Word) (h : s.stackHasRoom) : (s.push a h).st = s.st := rfl
@[simp] theorem push_mem (a : Word) (h : s.stackHasRoom) : (s.push a h).mem = s.mem := rfl
@[simp] theorem push_status (a : Word) (h : s.stackHasRoom) : (s.push a h).status = s.status := rfl
@[simp] theorem push_wait (a : Word) (h : s.stackHasRoom) : (s.push a h).wait = s.wait := rfl
@[simp] theorem push_keys (a : Word) (h : s.stackHasRoom) : (s.push a h).keys = s.keys := rfl
@[simp] theorem push_screen (a : Word) (h : s.stackHasRoom) : (s.push a h).screen = s.screen := rfl
@[simp] theorem push_pollAnswers (a : Word) (h : s.stackHasRoom) : (s.push a h).pollAnswers = s.pollAnswers := rfl
@[simp] theorem push_pollDraws (a : Word) (h : s.stackHasRoom) : (s.push a h).pollDraws = s.pollDraws := rfl
@[simp] theorem push_randomAnswers (a : Word) (h : s.stackHasRoom) : (s.push a h).randomAnswers = s.randomAnswers := rfl
@[simp] theorem push_randomDraws (a : Word) (h : s.stackHasRoom) : (s.push a h).randomDraws = s.randomDraws := rfl

/-! ### `pop` -/

@[simp] theorem pop_v : s.pop.v = s.v := rfl
@[simp] theorem pop_i : s.pop.i = s.i := rfl
@[simp] theorem pop_pc : s.pop.pc = s.pc := rfl
@[simp] theorem pop_stack : s.pop.stack = s.stack := rfl
@[simp] theorem pop_sp : s.pop.sp = s.spBelow := rfl
@[simp] theorem pop_dt : s.pop.dt = s.dt := rfl
@[simp] theorem pop_st : s.pop.st = s.st := rfl
@[simp] theorem pop_mem : s.pop.mem = s.mem := rfl
@[simp] theorem pop_status : s.pop.status = s.status := rfl
@[simp] theorem pop_wait : s.pop.wait = s.wait := rfl
@[simp] theorem pop_keys : s.pop.keys = s.keys := rfl
@[simp] theorem pop_screen : s.pop.screen = s.screen := rfl
@[simp] theorem pop_pollAnswers : s.pop.pollAnswers = s.pollAnswers := rfl
@[simp] theorem pop_pollDraws : s.pop.pollDraws = s.pollDraws := rfl
@[simp] theorem pop_randomAnswers : s.pop.randomAnswers = s.randomAnswers := rfl
@[simp] theorem pop_randomDraws : s.pop.randomDraws = s.randomDraws := rfl

/-! ### Register reads -/

@[simp] theorem setIndex_reg (w : Word) (r : RegIdx) : (s.setIndex w).reg r = s.reg r := rfl
@[simp] theorem setPc_reg (w : Word) (r : RegIdx) : (s.setPc w).reg r = s.reg r := rfl
@[simp] theorem setDelay_reg (b : Byte) (r : RegIdx) : (s.setDelay b).reg r = s.reg r := rfl
@[simp] theorem setSound_reg (b : Byte) (r : RegIdx) : (s.setSound b).reg r = s.reg r := rfl
@[simp] theorem setMem_reg (m : Memory) (r : RegIdx) : (s.setMem m).reg r = s.reg r := rfl
@[simp] theorem setScreen_reg (fb : Screen) (r : RegIdx) : (s.setScreen fb).reg r = s.reg r := rfl
@[simp] theorem setStatus_reg (u : Status) (r : RegIdx) : (s.setStatus u).reg r = s.reg r := rfl
@[simp] theorem setWait_reg (w : Option RegIdx) (r : RegIdx) : (s.setWait w).reg r = s.reg r := rfl
@[simp] theorem setKeys_reg (ks : Vector Bool 16) (r : RegIdx) : (s.setKeys ks).reg r = s.reg r := rfl
@[simp] theorem push_reg (a : Word) (h : s.stackHasRoom) (r : RegIdx) : (s.push a h).reg r = s.reg r := rfl
@[simp] theorem pop_reg (r : RegIdx) : s.pop.reg r = s.reg r := rfl

/-- A register reads what was last written to it, and a write leaves the others alone (R10). -/
theorem setReg_reg (x : RegIdx) (b : Byte) (r : RegIdx) :
    (s.setReg x b).reg r = if r = x then b else s.reg r := by
  unfold reg setReg
  by_cases h : r = x
  · subst h
    simp
  · have hne : x.toNat ≠ r.toNat := fun e => h (BitVec.eq_of_toNat_eq e.symm)
    simp [h, hne]

@[simp] theorem setReg_reg_self (x : RegIdx) (b : Byte) : (s.setReg x b).reg x = b := by
  rw [setReg_reg, if_pos rfl]

theorem setReg_reg_of_ne {x r : RegIdx} (b : Byte) (h : r ≠ x) : (s.setReg x b).reg r = s.reg r := by
  rw [setReg_reg, if_neg h]

end Sys2Proof.Machine.State
end

