-- ==== Sys2Proof/Laws/Frame.lean ====
section
/-! SUPPORT. Frames: each named update changes its own part of the state, and frames compose. -/

namespace Sys2Proof.Machine

variable {s t u : State}

theorem kept_refl (s : State) (p : Part) : kept s s p := by
  cases p <;> simp [kept]

theorem kept_trans {p : Part} (h : kept s t p) (h' : kept t u p) : kept s u p := by
  cases p <;> simp_all [kept]

theorem keptExcept_refl (s : State) (l : List Part) : keptExcept s s l := fun p _ => kept_refl s p

/-- A longer list of changed parts says less. -/
theorem keptExcept_mono {l l' : List Part} (h : keptExcept s t l) (hl : ∀ p ∈ l, p ∈ l') :
    keptExcept s t l' := fun p hp => h p fun e => hp (hl p e)

/-- Two updates one after the other change what the one or the other changes. -/
theorem keptExcept_trans {l : List Part} (h : keptExcept s t l) (h' : keptExcept t u l) :
    keptExcept s u l := fun p hp => kept_trans (h p hp) (h' p hp)

theorem regsKept_refl (s : State) (l : List RegIdx) : regsKept s s l := fun _ _ => rfl

theorem regsKept_trans {l : List RegIdx} (h : regsKept s t l) (h' : regsKept t u l) : regsKept s u l :=
  fun r hr => (h' r hr).trans (h r hr)

theorem regsKept_of_kept (h : kept s t .regs) (l : List RegIdx) : regsKept s t l :=
  fun r _ => h r

theorem regsKept_setReg (s : State) (x : RegIdx) (b : Byte) {l : List RegIdx} (h : x ∈ l) :
    regsKept s (s.setReg x b) l := fun _ hr =>
  State.setReg_reg_of_ne s b fun e => hr (e ▸ h)

/-! ### Each update changes its own part -/

theorem keptExcept_setReg (s : State) (x : RegIdx) (b : Byte) : keptExcept s (s.setReg x b) [.regs] := by
  intro p hp
  cases p <;> simp_all [kept]

theorem keptExcept_setIndex (s : State) (w : Word) : keptExcept s (s.setIndex w) [.index] := by
  intro p hp
  cases p <;> simp_all [kept]

theorem keptExcept_setPc (s : State) (w : Word) : keptExcept s (s.setPc w) [.pc] := by
  intro p hp
  cases p <;> simp_all [kept]

theorem keptExcept_setDelay (s : State) (b : Byte) : keptExcept s (s.setDelay b) [.delay] := by
  intro p hp
  cases p <;> simp_all [kept]

theorem keptExcept_setSound (s : State) (b : Byte) : keptExcept s (s.setSound b) [.sound] := by
  intro p hp
  cases p <;> simp_all [kept]

theorem keptExcept_setMem (s : State) (m : Memory) : keptExcept s (s.setMem m) [.memory] := by
  intro p hp
  cases p <;> simp_all [kept]

theorem keptExcept_setScreen (s : State) (fb : Screen) : keptExcept s (s.setScreen fb) [.screen] := by
  intro p hp
  cases p <;> simp_all [kept]

theorem keptExcept_setStatus (s : State) (u : Status) : keptExcept s (s.setStatus u) [.status] := by
  intro p hp
  cases p <;> simp_all [kept]

theorem keptExcept_setWait (s : State) (w : Option RegIdx) : keptExcept s (s.setWait w) [.wait] := by
  intro p hp
  cases p <;> simp_all [kept]

theorem keptExcept_setKeys (s : State) (ks : Vector Bool 16) : keptExcept s (s.setKeys ks) [.keys] := by
  intro p hp
  cases p <;> simp_all [kept]

theorem keptExcept_push (s : State) (a : Word) (h : s.stackHasRoom) : keptExcept s (s.push a h) [.stack] := by
  intro p hp
  cases p <;> simp_all [kept]

theorem keptExcept_pop (s : State) : keptExcept s s.pop [.stack] := by
  intro p hp
  cases p <;> simp_all [kept]

theorem keptExcept_advance (s : State) : keptExcept s (advance s) [.pc] := keptExcept_setPc s _

theorem keptExcept_skipIf (c : Bool) (s : State) : keptExcept s (skipIf c s) [.pc] := by
  unfold skipIf
  split
  · exact keptExcept_setPc s _
  · exact keptExcept_advance s

/-- Taking a fatal condition changes the status alone (R203). -/
theorem raiseFatal_halts (k : FatalKind) (info : Nat) (s : State) : haltsAs s (raiseFatal k info s) k info :=
  ⟨rfl, keptExcept_setStatus s _⟩

theorem keptExcept_stopEngine (s : State) : keptExcept s (stopEngine s) [.status, .wait] :=
  keptExcept_trans (t := s.setWait none)
    (keptExcept_mono (keptExcept_setWait s none) (by simp))
    (keptExcept_mono (keptExcept_setStatus _ _) (by simp))

theorem keptExcept_tick (s : State) : keptExcept s (tick s) [.delay, .sound] :=
  keptExcept_trans (t := s.setDelay (countDown s.dt))
    (keptExcept_mono (keptExcept_setDelay s _) (by simp))
    (keptExcept_mono (keptExcept_setSound _ _) (by simp))

end Sys2Proof.Machine
end

