-- ==== Sys2Proof/Laws/Ops.lean ====
section
/-! SUPPORT. One lemma for each shared operation: what it leaves, said once, for the proofs to cite instead
of unfolding it. -/

namespace Sys2Proof.Machine

/-! ### The end of a handler -/

@[simp] theorem advance_pc (s : State) : (advance s).pc = s.pc + 2 := rfl

@[simp] theorem advance_reg (s : State) (r : RegIdx) : (advance s).reg r = s.reg r := rfl

theorem skipIf_pc (c : Bool) (s : State) : (skipIf c s).pc = if c then s.pc + 4 else s.pc + 2 := by
  cases c <;> rfl

/-- A timer's countdown is subtraction that stops at 0 (R160). -/
theorem countDown_toNat (b : Byte) : (countDown b).toNat = b.toNat - 1 := by
  unfold countDown
  split
  · next h => simp [h]
  · next h =>
    have : b.toNat ≠ 0 := fun e => h (BitVec.eq_of_toNat_eq e)
    have := b.isLt
    have h1 : (1 : Byte).toNat = 1 := rfl
    rw [BitVec.toNat_sub, h1]
    omega

@[simp] theorem tick_dt (s : State) : (tick s).dt = countDown s.dt := rfl

@[simp] theorem tick_st (s : State) : (tick s).st = countDown s.st := rfl

/-- A flag as a number. -/
theorem flagOf_toNat (c : Bool) : (flagOf c).toNat = if c then 1 else 0 := by
  cases c <;> rfl

/-! ### Register results -/

/-- `writeResult` answers: `V[x]` written, the default advance, all else kept. -/
theorem writeResult_spec (x : RegIdx) (b : Byte) (s : State) :
    ∃ t, writeResult x b s = .next t ∧ t.reg x = b ∧ t.pc = s.pc + 2 ∧ regsKept s t [x] ∧
      keptExcept s t [.regs, .pc] :=
  ⟨_, rfl, State.setReg_reg_self s x b, rfl,
    regsKept_trans (regsKept_setReg s x b (by simp)) (regsKept_of_kept (fun _ => rfl) _),
    keptExcept_trans (keptExcept_mono (keptExcept_setReg s x b) (by simp))
      (keptExcept_mono (keptExcept_advance _) (by simp))⟩

/-- Two register writes and the default advance: the later write survives where they meet (R15). -/
theorem twoWrites_spec (x y : RegIdx) (a b : Byte) (s : State) :
    ∃ t, finish ((s.setReg x a).setReg y b) = .next t ∧ t.reg y = b ∧ (x ≠ y → t.reg x = a) ∧
      t.pc = s.pc + 2 ∧ regsKept s t [x, y] ∧ keptExcept s t [.regs, .pc] :=
  ⟨_, rfl, State.setReg_reg_self _ y b,
    fun h => (State.setReg_reg_of_ne _ b h).trans (State.setReg_reg_self s x a), rfl,
    regsKept_trans (regsKept_setReg s x a (by simp))
      (regsKept_trans (regsKept_setReg _ y b (by simp)) (regsKept_of_kept (fun _ => rfl) _)),
    keptExcept_trans (keptExcept_mono (keptExcept_setReg s x a) (by simp))
      (keptExcept_trans (keptExcept_mono (keptExcept_setReg _ y b) (by simp))
        (keptExcept_mono (keptExcept_advance _) (by simp)))⟩

/-! ### Memory transfers -/

/-- The bounds check of R47: in range, the effect and the advance; out of range, the fatal condition with
the highest address. -/
theorem withIndexed_spec (k : Nat) (s t : State) :
    (indexedAddr s k ≤ 0xFFF → withIndexed k s t = .next (advance t)) ∧
    (0xFFF < indexedAddr s k →
      withIndexed k s t = .next (raiseFatal .memoryOutOfRange (indexedAddr s k) s)) := by
  unfold withIndexed
  exact ⟨fun h => if_pos h, fun h => if_neg (Nat.not_le.2 h)⟩

/-- Memory after a dump of `n` registers that fits: register `k` at `a + k`, every other byte as before
(R144). -/
theorem read_dumpRegs (s : State) (a n : Nat) (h : a + n ≤ Config.memSize) (c : Nat) :
    (dumpRegs s a n).read c =
      if a ≤ c ∧ c < a + n then s.reg (BitVec.ofNat 4 (c - a)) else s.mem.read c := by
  induction n with
  | zero =>
    rw [dumpRegs, if_neg (by omega)]
  | succ n ih =>
    rw [dumpRegs]
    by_cases hc : c = a + n
    · subst hc
      rw [Memory.read_write_self _ _ (by omega), if_pos (by omega), Nat.add_sub_cancel_left]
    · rw [Memory.read_write_of_ne _ _ hc, ih (by omega)]
      by_cases h' : a ≤ c ∧ c < a + n
      · rw [if_pos h', if_pos (by omega)]
      · rw [if_neg h', if_neg (by omega)]

/-- Outside the stored bytes a dump changes nothing, in range or not. -/
theorem read_dumpRegs_outside (s : State) (a n c : Nat) (h : c < a ∨ a + n ≤ c) :
    (dumpRegs s a n).read c = s.mem.read c := by
  induction n with
  | zero => rfl
  | succ n ih => rw [dumpRegs, Memory.read_write_of_ne _ _ (by omega), ih (by omega)]

theorem wf_dumpRegs {s : State} (h : s.mem.wf) (a n : Nat) : (dumpRegs s a n).wf := by
  induction n with
  | zero => exact h
  | succ n ih => exact Memory.wf_write ih _ _

/-- The registers after a load of `n` bytes: register `k < n` from `a + k`, the others as before (R145). -/
theorem loadRegs_reg (s : State) (a n : Nat) (h : n ≤ 16) (r : RegIdx) :
    (loadRegs s a n).reg r = if r.toNat < n then s.mem.read (a + r.toNat) else s.reg r := by
  induction n with
  | zero => rfl
  | succ n ih =>
    rw [loadRegs, State.setReg_reg]
    have hn : (BitVec.ofNat 4 n : RegIdx).toNat = n := by
      rw [BitVec.toNat_ofNat]
      omega
    by_cases e : r = BitVec.ofNat 4 n
    · subst e
      rw [if_pos rfl, hn, if_pos (Nat.lt_succ_self n)]
    · have : r.toNat ≠ n := fun e' => e (BitVec.eq_of_toNat_eq (e'.trans hn.symm))
      rw [if_neg e, ih (by omega)]
      by_cases h' : r.toNat < n
      · rw [if_pos h', if_pos (by omega)]
      · rw [if_neg h', if_neg (by omega)]

theorem keptExcept_loadRegs (s : State) (a n : Nat) : keptExcept s (loadRegs s a n) [.regs] := by
  induction n with
  | zero => exact keptExcept_refl s _
  | succ n ih => exact keptExcept_trans ih (keptExcept_setReg _ _ _)

/-- The three digits where they are stored (R143). -/
theorem read_storeDigits (m : Memory) (a : Nat) (b : Byte) (h : a + 2 < Config.memSize) (c : Nat) :
    (storeDigits m a b).read c =
      if c = a then digitHundreds b else if c = a + 1 then digitTens b
      else if c = a + 2 then digitUnits b else m.read c := by
  unfold storeDigits
  simp only [Memory.read_write]
  grind

theorem read_storeDigits_outside (m : Memory) (a : Nat) (b : Byte) (c : Nat) (h : c < a ∨ a + 3 ≤ c) :
    (storeDigits m a b).read c = m.read c := by
  unfold storeDigits
  rw [Memory.read_write_of_ne _ _ (by omega), Memory.read_write_of_ne _ _ (by omega),
    Memory.read_write_of_ne _ _ (by omega)]

theorem wf_storeDigits {m : Memory} (h : m.wf) (a : Nat) (b : Byte) : (storeDigits m a b).wf :=
  Memory.wf_write (Memory.wf_write (Memory.wf_write h _ _) _ _) _ _

/-! ### The ports -/

theorem keptExcept_consumePoll (s : State) : keptExcept s (consumePoll s) [.polls] := by
  unfold consumePoll
  split <;> (intro p hp; cases p <;> simp_all [kept, State.reg])

/-- A poll changes the key state and the answers alone (R177). -/
theorem keptExcept_afterPoll (s : State) : keptExcept s (afterPoll s) [.keys, .polls] := by
  have h := keptExcept_mono (l' := [.keys, .polls]) (keptExcept_consumePoll s) (by simp)
  unfold afterPoll
  split
  · exact keptExcept_trans h (keptExcept_mono (keptExcept_setKeys _ _) (by simp))
  · exact h

/-- A poll answered `Quit` does not refresh the key state. -/
theorem keptExcept_afterPoll_quit {s : State} (h : pollAnswer s = .quit) :
    keptExcept s (afterPoll s) [.polls] := by
  unfold afterPoll
  rw [h]
  exact keptExcept_consumePoll s

/-- A poll answered `Continue` refreshes it. -/
theorem afterPoll_keys {s : State} {keys : Vector Bool 16} {report : Nibble}
    (h : pollAnswer s = .proceed keys report) : (afterPoll s).keys = keys := by
  unfold afterPoll
  rw [h]
  rfl

/-- A listed answer is the one given, and it is used up (R177; log 5). -/
theorem poll_listed {s : State} {a : PollAnswer} {rest : List PollAnswer} (h : s.pollAnswers = a :: rest) :
    pollAnswer s = a ∧ (afterPoll s).pollAnswers = rest := by
  simp only [afterPoll, pollAnswer, consumePoll, h]
  exact ⟨trivial, by cases a <;> rfl⟩

/-- A poll leaves the memory list itself alone. -/
@[simp] theorem afterPoll_mem (s : State) : (afterPoll s).mem = s.mem := by
  unfold afterPoll consumePoll
  split <;> split <;> rfl

@[simp] theorem afterPoll_pc (s : State) : (afterPoll s).pc = s.pc :=
  keptExcept_afterPoll s .pc (by simp)

@[simp] theorem afterPoll_status (s : State) : (afterPoll s).status = s.status :=
  keptExcept_afterPoll s .status (by simp)

@[simp] theorem afterPoll_wait (s : State) : (afterPoll s).wait = s.wait :=
  keptExcept_afterPoll s .wait (by simp)

@[simp] theorem afterPoll_stack (s : State) : (afterPoll s).stack = s.stack :=
  (keptExcept_afterPoll s .stack (by simp)).2

@[simp] theorem afterPoll_sp (s : State) : (afterPoll s).sp = s.sp :=
  (keptExcept_afterPoll s .stack (by simp)).1

theorem keptExcept_consumeRandom (s : State) : keptExcept s (consumeRandom s) [.randoms] := by
  unfold consumeRandom
  split <;> (intro p hp; cases p <;> simp_all [kept, State.reg])

@[simp] theorem consumeRandom_mem (s : State) : (consumeRandom s).mem = s.mem := by
  unfold consumeRandom
  split <;> rfl

/-- A listed byte is the one given, and it is used up (R183; log 17). -/
theorem random_listed {s : State} {b : Byte} {rest : List Byte} (h : s.randomAnswers = b :: rest) :
    randomByte s = b ∧ (consumeRandom s).randomAnswers = rest := by
  simp only [randomByte, consumeRandom, h]
  exact ⟨trivial, trivial⟩

/-- With none listed the byte is the free value of the counter, which advances (R183; log 17). -/
theorem random_free {s : State} (h : s.randomAnswers = []) :
    randomByte s = Config.freeRandomByte s.randomDraws ∧
    (consumeRandom s).randomDraws = s.randomDraws + 1 := by
  simp only [randomByte, consumeRandom, h]
  exact ⟨trivial, trivial⟩

/-- The reported key went down; the environment's choice is taken if it did; there is none only if no key
went down (R179). -/
theorem reportedKey_spec (old new : Vector Bool 16) (report : Nibble) :
    (∀ k, reportedKey old new report = some k → keyWentDown old new k = true) ∧
    (keyWentDown old new report = true → reportedKey old new report = some report) ∧
    (reportedKey old new report = none ↔ ∀ k, keyWentDown old new k = false) := by
  unfold reportedKey
  refine ⟨fun k h => List.find?_some h, fun h => ?_, ?_⟩
  · have e : (List.range 16).map (fun j => report + BitVec.ofNat 4 j) =
        report :: (List.range' 1 15).map fun j => report + BitVec.ofNat 4 j := by
      rw [show List.range 16 = 0 :: List.range' 1 15 by decide, List.map_cons, BitVec.add_zero]
    rw [e, List.find?_cons_of_pos h]
  · rw [List.find?_eq_none]
    constructor
    · intro h k
      have hk : k ∈ (List.range 16).map fun j => report + BitVec.ofNat 4 j := by
        refine List.mem_map.2 ⟨(k - report).toNat, List.mem_range.2 (k - report).isLt, ?_⟩
        rw [BitVec.ofNat_toNat, BitVec.setWidth_eq, BitVec.add_comm, BitVec.sub_add_cancel]
      simpa using h k hk
    · intro h k _
      simp [h k]

/-- Polls that do not end a wait leave it to the polls after them (R179). -/
theorem waitPolls_quiet {n : Nat} {old mid : Vector Bool 16} {quiet : List PollAnswer}
    (h : quietPolls old quiet mid) (rest : List PollAnswer) :
    waitPolls n old (quiet ++ rest) = waitPolls n mid rest := by
  induction quiet generalizing old with
  | nil => rw [List.nil_append, show mid = old from h]
  | cons a quiet ih =>
    cases a with
    | quit => exact h.elim
    | proceed keys report =>
      obtain ⟨hk, hq⟩ := h
      have e : reportedKey old keys report = none := by
        refine (reportedKey_spec old keys report).2.2.2 fun k => ?_
        unfold keyWentDown
        cases hj : keys[k.toNat]'k.isLt with
        | false => rfl
        | true =>
          rw [show old[k.toNat]'k.isLt = true from hk k.toFin hj]
          rfl
      rw [List.cons_append, waitPolls, e]
      exact ih hq

/-- A wait changes the key state and the answers alone. -/
theorem keptExcept_afterWait (s : State) : keptExcept s (afterWait s) [.keys, .polls] := by
  intro p hp
  cases p <;> simp_all [kept, afterWait, State.reg]

@[simp] theorem afterWait_mem (s : State) : (afterWait s).mem = s.mem := rfl

@[simp] theorem afterWait_pc (s : State) : (afterWait s).pc = s.pc := rfl

@[simp] theorem afterWait_status (s : State) : (afterWait s).status = s.status := rfl

@[simp] theorem afterWait_wait (s : State) : (afterWait s).wait = s.wait := rfl

@[simp] theorem afterWait_stack (s : State) : (afterWait s).stack = s.stack := rfl

@[simp] theorem afterWait_sp (s : State) : (afterWait s).sp = s.sp := rfl

@[simp] theorem afterWait_dt (s : State) : (afterWait s).dt = s.dt := rfl

@[simp] theorem afterWait_st (s : State) : (afterWait s).st = s.st := rfl

/-- The three ways `Fx0A` goes (R182): a key, `Quit`, or no step. -/
theorem execLdVxK_cases (x : RegIdx) (s : State) :
    (∃ k, waitEnd s = some (.key k) ∧
      execLdVxK x s = .next (advance (((afterWait s).setWait none).setReg x (k.setWidth 8)))) ∨
    (waitEnd s = some .quit ∧ execLdVxK x s = .next (stopEngine (afterWait s))) ∨
    (waitEnd s = none ∧ execLdVxK x s = .fault .keyWaitUnanswered) := by
  unfold execLdVxK
  split
  · exact .inl ⟨_, ‹_›, rfl⟩
  · exact .inr (.inl ⟨‹_›, rfl⟩)
  · exact .inr (.inr ⟨‹_›, rfl⟩)

/-- What a completed `Fx0A` leaves: no suspended call, and the status as it was or `Stopped` (R182). -/
theorem execLdVxK_next {x : RegIdx} {s t : State} (h : execLdVxK x s = .next t) :
    t.wait = none ∧ t.dt = s.dt ∧ t.st = s.st ∧ (t.status = s.status ∨ t.status = .stopped) := by
  rcases execLdVxK_cases x s with ⟨k, -, e⟩ | ⟨-, e⟩ | ⟨-, e⟩ <;> rw [h] at e <;> cases e
  · exact ⟨rfl, rfl, rfl, .inl rfl⟩
  · exact ⟨rfl, rfl, rfl, .inr rfl⟩

/-! ### The display -/

/-- A flip inverts its pixel and no other. -/
theorem flip_pixel (fb : Screen) (r r' : Fin 32) (c c' : Fin 64) :
    (fb.flip r c).pixel r' c' = (fb.pixel r' c' ^^ (decide (r' = r) && decide (c' = c))) := by
  unfold Screen.flip Screen.pixel
  rw [Vector.getElem_set]
  by_cases h : r = r'
  · subst h
    rw [if_pos rfl, BitVec.getLsbD_xor, BitVec.getLsbD_twoPow]
    have : (decide (c.val < 64) && decide (c.val = c'.val)) = decide (c' = c) := by
      simp [c.isLt, Fin.ext_iff, eq_comm]
    rw [this]
    simp
  · rw [if_neg fun e => h (Fin.ext e)]
    simp [Ne.symm h]

/-- Every pixel of a cleared buffer is unset (R171). -/
theorem cleared_pixel (r : Fin 32) (c : Fin 64) : Screen.cleared.pixel r c = false := by
  simp [Screen.cleared, Screen.pixel]

end Sys2Proof.Machine
end

