-- ==== Sys2Proof/Laws/PerInstr.lean ====
section
/-! SUPPORT. The family `Encoding`, one lemma for each constructor: an instruction's word selects its own row
of R64's table. -/

namespace Sys2Proof.Laws.Encoding

/-- The word of the instruction selects the row with its mnemonic (R64). -/
def Statement (i : Instr) : Prop :=
  ∃ r ∈ opcodeRows, r.mnemonic = i.mnemonic ∧ r.selects (encode i) = true

/-- A row with mask `0xF000` is selected by the first nibble. -/
theorem selects_op1 {w v : Word} {a : Nibble} (m : String) (h : op1 w = a) (hv : v = ofNibbles a 0 0 0) :
    OpcodeRow.selects ⟨m, v, 0xF000⟩ w = true := by
  rw [OpcodeRow.selects, and_F000, h, hv, beq_self_eq_true]

/-- A row with mask `0xF00F` is selected by the first and the last nibble. -/
theorem selects_op4 {w v : Word} {a d : Nibble} (m : String) (h : op1 w = a) (h' : fieldN w = d)
    (hv : v = ofNibbles a 0 0 d) : OpcodeRow.selects ⟨m, v, 0xF00F⟩ w = true := by
  rw [OpcodeRow.selects, and_F00F, h, h', hv, beq_self_eq_true]

/-- A row with mask `0xF0FF` is selected by the first nibble and the low byte. -/
theorem selects_lowByte (a x : Nibble) (nn : Byte) (m : String) (v : Word) (h : v = ofNibblesByte a 0 nn) :
    OpcodeRow.selects ⟨m, v, 0xF0FF⟩ (ofNibblesByte a x nn) = true := by
  have e : ofNibblesByte a x nn &&& ofNibblesByte 0xF 0 0xFF = ofNibblesByte a 0 nn := by
    show (a ++ x ++ nn) &&& ((0xF : Nibble) ++ (0 : Nibble) ++ (0xFF : Byte)) = a ++ (0 : Nibble) ++ nn
    rw [BitVec.and_append, BitVec.and_append, nibble_and_F, nibble_and_0,
      show nn &&& 0xFF = nn from BitVec.and_allOnes]
  rw [OpcodeRow.selects, h, show (0xF0FF : Word) = ofNibblesByte 0xF 0 0xFF by decide, e, beq_self_eq_true]

theorem cls : Statement Instr.cls :=
  ⟨⟨"CLS", 0x00E0, 0xFFFF⟩, by decide, rfl,
    by decide⟩

theorem ret : Statement Instr.ret :=
  ⟨⟨"RET", 0x00EE, 0xFFFF⟩, by decide, rfl,
    by decide⟩

theorem jp (nnn : Addr12) : Statement (Instr.jp nnn) :=
  ⟨⟨"JP", 0x1000, 0xF000⟩, by decide, rfl,
    selects_op1 _ (op1_ofNibbleAddr _ _) (by decide)⟩

theorem call (nnn : Addr12) : Statement (Instr.call nnn) :=
  ⟨⟨"CALL", 0x2000, 0xF000⟩, by decide, rfl,
    selects_op1 _ (op1_ofNibbleAddr _ _) (by decide)⟩

theorem seImm (x : RegIdx) (nn : Byte) : Statement (Instr.seImm x nn) :=
  ⟨⟨"SE_IMM", 0x3000, 0xF000⟩, by decide, rfl,
    selects_op1 _ (op1_ofNibblesByte _ _ _) (by decide)⟩

theorem sneImm (x : RegIdx) (nn : Byte) : Statement (Instr.sneImm x nn) :=
  ⟨⟨"SNE_IMM", 0x4000, 0xF000⟩, by decide, rfl,
    selects_op1 _ (op1_ofNibblesByte _ _ _) (by decide)⟩

theorem seReg (x : RegIdx) (y : RegIdx) : Statement (Instr.seReg x y) :=
  ⟨⟨"SE_REG", 0x5000, 0xF00F⟩, by decide, rfl,
    selects_op4 _ (op1_ofNibbles _ _ _ _) (fieldN_ofNibbles _ _ _ _) (by decide)⟩

theorem ldImm (x : RegIdx) (nn : Byte) : Statement (Instr.ldImm x nn) :=
  ⟨⟨"LD_IMM", 0x6000, 0xF000⟩, by decide, rfl,
    selects_op1 _ (op1_ofNibblesByte _ _ _) (by decide)⟩

theorem addImm (x : RegIdx) (nn : Byte) : Statement (Instr.addImm x nn) :=
  ⟨⟨"ADD_IMM", 0x7000, 0xF000⟩, by decide, rfl,
    selects_op1 _ (op1_ofNibblesByte _ _ _) (by decide)⟩

theorem ldReg (x : RegIdx) (y : RegIdx) : Statement (Instr.ldReg x y) :=
  ⟨⟨"LD_REG", 0x8000, 0xF00F⟩, by decide, rfl,
    selects_op4 _ (op1_ofNibbles _ _ _ _) (fieldN_ofNibbles _ _ _ _) (by decide)⟩

theorem or (x : RegIdx) (y : RegIdx) : Statement (Instr.or x y) :=
  ⟨⟨"OR", 0x8001, 0xF00F⟩, by decide, rfl,
    selects_op4 _ (op1_ofNibbles _ _ _ _) (fieldN_ofNibbles _ _ _ _) (by decide)⟩

theorem and (x : RegIdx) (y : RegIdx) : Statement (Instr.and x y) :=
  ⟨⟨"AND", 0x8002, 0xF00F⟩, by decide, rfl,
    selects_op4 _ (op1_ofNibbles _ _ _ _) (fieldN_ofNibbles _ _ _ _) (by decide)⟩

theorem xor (x : RegIdx) (y : RegIdx) : Statement (Instr.xor x y) :=
  ⟨⟨"XOR", 0x8003, 0xF00F⟩, by decide, rfl,
    selects_op4 _ (op1_ofNibbles _ _ _ _) (fieldN_ofNibbles _ _ _ _) (by decide)⟩

theorem addReg (x : RegIdx) (y : RegIdx) : Statement (Instr.addReg x y) :=
  ⟨⟨"ADD_REG", 0x8004, 0xF00F⟩, by decide, rfl,
    selects_op4 _ (op1_ofNibbles _ _ _ _) (fieldN_ofNibbles _ _ _ _) (by decide)⟩

theorem sub (x : RegIdx) (y : RegIdx) : Statement (Instr.sub x y) :=
  ⟨⟨"SUB", 0x8005, 0xF00F⟩, by decide, rfl,
    selects_op4 _ (op1_ofNibbles _ _ _ _) (fieldN_ofNibbles _ _ _ _) (by decide)⟩

theorem shr (x : RegIdx) (y : RegIdx) : Statement (Instr.shr x y) :=
  ⟨⟨"SHR", 0x8006, 0xF00F⟩, by decide, rfl,
    selects_op4 _ (op1_ofNibbles _ _ _ _) (fieldN_ofNibbles _ _ _ _) (by decide)⟩

theorem subn (x : RegIdx) (y : RegIdx) : Statement (Instr.subn x y) :=
  ⟨⟨"SUBN", 0x8007, 0xF00F⟩, by decide, rfl,
    selects_op4 _ (op1_ofNibbles _ _ _ _) (fieldN_ofNibbles _ _ _ _) (by decide)⟩

theorem shl (x : RegIdx) (y : RegIdx) : Statement (Instr.shl x y) :=
  ⟨⟨"SHL", 0x800E, 0xF00F⟩, by decide, rfl,
    selects_op4 _ (op1_ofNibbles _ _ _ _) (fieldN_ofNibbles _ _ _ _) (by decide)⟩

theorem sneReg (x : RegIdx) (y : RegIdx) : Statement (Instr.sneReg x y) :=
  ⟨⟨"SNE_REG", 0x9000, 0xF00F⟩, by decide, rfl,
    selects_op4 _ (op1_ofNibbles _ _ _ _) (fieldN_ofNibbles _ _ _ _) (by decide)⟩

theorem ldI (nnn : Addr12) : Statement (Instr.ldI nnn) :=
  ⟨⟨"LD_I", 0xA000, 0xF000⟩, by decide, rfl,
    selects_op1 _ (op1_ofNibbleAddr _ _) (by decide)⟩

theorem jpV0 (nnn : Addr12) : Statement (Instr.jpV0 nnn) :=
  ⟨⟨"JP_V0", 0xB000, 0xF000⟩, by decide, rfl,
    selects_op1 _ (op1_ofNibbleAddr _ _) (by decide)⟩

theorem rnd (x : RegIdx) (nn : Byte) : Statement (Instr.rnd x nn) :=
  ⟨⟨"RND", 0xC000, 0xF000⟩, by decide, rfl,
    selects_op1 _ (op1_ofNibblesByte _ _ _) (by decide)⟩

theorem drw (x : RegIdx) (y : RegIdx) (n : Nibble) : Statement (Instr.drw x y n) :=
  ⟨⟨"DRW", 0xD000, 0xF000⟩, by decide, rfl,
    selects_op1 _ (op1_ofNibbles _ _ _ _) (by decide)⟩

theorem skp (x : RegIdx) : Statement (Instr.skp x) :=
  ⟨⟨"SKP", 0xE09E, 0xF0FF⟩, by decide, rfl,
    selects_lowByte _ _ _ _ _ (by decide)⟩

theorem sknp (x : RegIdx) : Statement (Instr.sknp x) :=
  ⟨⟨"SKNP", 0xE0A1, 0xF0FF⟩, by decide, rfl,
    selects_lowByte _ _ _ _ _ (by decide)⟩

theorem ldVxDt (x : RegIdx) : Statement (Instr.ldVxDt x) :=
  ⟨⟨"LD_VX_DT", 0xF007, 0xF0FF⟩, by decide, rfl,
    selects_lowByte _ _ _ _ _ (by decide)⟩

theorem ldVxK (x : RegIdx) : Statement (Instr.ldVxK x) :=
  ⟨⟨"LD_VX_K", 0xF00A, 0xF0FF⟩, by decide, rfl,
    selects_lowByte _ _ _ _ _ (by decide)⟩

theorem ldDtVx (x : RegIdx) : Statement (Instr.ldDtVx x) :=
  ⟨⟨"LD_DT_VX", 0xF015, 0xF0FF⟩, by decide, rfl,
    selects_lowByte _ _ _ _ _ (by decide)⟩

theorem ldStVx (x : RegIdx) : Statement (Instr.ldStVx x) :=
  ⟨⟨"LD_ST_VX", 0xF018, 0xF0FF⟩, by decide, rfl,
    selects_lowByte _ _ _ _ _ (by decide)⟩

theorem addI (x : RegIdx) : Statement (Instr.addI x) :=
  ⟨⟨"ADD_I", 0xF01E, 0xF0FF⟩, by decide, rfl,
    selects_lowByte _ _ _ _ _ (by decide)⟩

theorem ldF (x : RegIdx) : Statement (Instr.ldF x) :=
  ⟨⟨"LD_F", 0xF029, 0xF0FF⟩, by decide, rfl,
    selects_lowByte _ _ _ _ _ (by decide)⟩

theorem ldB (x : RegIdx) : Statement (Instr.ldB x) :=
  ⟨⟨"LD_B", 0xF033, 0xF0FF⟩, by decide, rfl,
    selects_lowByte _ _ _ _ _ (by decide)⟩

theorem ldMemVx (x : RegIdx) : Statement (Instr.ldMemVx x) :=
  ⟨⟨"LD_MEM_VX", 0xF055, 0xF0FF⟩, by decide, rfl,
    selects_lowByte _ _ _ _ _ (by decide)⟩

theorem ldVxMem (x : RegIdx) : Statement (Instr.ldVxMem x) :=
  ⟨⟨"LD_VX_MEM", 0xF065, 0xF0FF⟩, by decide, rfl,
    selects_lowByte _ _ _ _ _ (by decide)⟩

end Sys2Proof.Laws.Encoding
end

