-- ==== Sys2Proof/Laws/Step.lean ====
section
/-! SUPPORT. What a step can do, said once (R80 to R91): the ways a cycle begins and ends, for the proofs
about `step` to split on instead of unfolding it. -/

namespace Sys2Proof.Machine

variable {s t : State}

/-- The two ways a handler's next state goes on: ticked, if the cycle is complete, or as it is (R88). -/
theorem endCycle_cases {o : Outcome} (h : endCycle o = .next t) : ∃ u, o = .next u ∧
    ((cycleCompletes u ∧ t = tick u) ∨ (¬ cycleCompletes u ∧ t = u)) := by
  cases o with
  | next u =>
    refine ⟨u, rfl, ?_⟩
    cases h
    by_cases hc : cycleCompletes u
    · exact .inl ⟨hc, if_pos hc⟩
    · exact .inr ⟨hc, if_neg hc⟩
  | fault f => cases h
  | refused r => cases h

/-- The four ways a step gets to its next state, all between cycles: a `Quit` at the top; a fetch above
`0xFFE`; an unmatched word; the handler of the fetched word. -/
theorem step_cases (h : step s = .next t) : s.status = .running ∧ s.wait = none ∧
    ((pollAnswer s = .quit ∧ t = stopEngine (afterPoll s)) ∨
     (0xFFE < s.pc.toNat ∧ t = raiseFatal .pcOutOfRange s.pc.toNat (afterPoll s)) ∨
     (∃ w, fetchWord (afterPoll s) = some w ∧ decodeWord w = none ∧
       t = raiseFatal .unknownOpcode w.toNat (afterPoll s)) ∨
     (∃ w i, fetchWord (afterPoll s) = some w ∧ decodeWord w = some i ∧
       endCycle (exec i (afterPoll s)) = .next t)) := by
  unfold step beginCycle at h
  cases hs : s.status <;> simp only [hs] at h <;> try contradiction
  cases hw : s.wait with
  | some x =>
    rw [hw] at h
    cases h
  | none =>
    refine ⟨rfl, rfl, ?_⟩
    simp only [hw, pollAndFetch] at h
    cases hp : pollAnswer s with
    | quit =>
      rw [hp] at h
      cases h
      exact .inl ⟨rfl, rfl⟩
    | proceed keys report =>
      simp only [hp, fetchAndDispatch] at h
      refine .inr ?_
      cases hf : fetchWord (afterPoll s) with
      | none =>
        rw [hf] at h
        cases h
        rw [afterPoll_pc]
        refine .inl ⟨?_, rfl⟩
        by_cases hpc : 0xFFE < s.pc.toNat
        · exact hpc
        · rw [fetchWord, afterPoll_pc, if_neg hpc] at hf
          cases hf
      | some w =>
        simp only [hf] at h
        refine .inr ?_
        cases hd : decodeWord w with
        | none =>
          rw [hd] at h
          cases h
          exact .inl ⟨w, rfl, hd, rfl⟩
        | some i =>
          rw [hd] at h
          exact .inr ⟨w, i, rfl, hd, h⟩

/-- Only the handler of `Fx0A` has no next state (R182). -/
theorem exec_answers (i : Instr) (s : State) :
    (∃ t, exec i s = .next t) ∨
      (∃ x, i = .ldVxK x ∧ waitEnd s = none ∧ exec i s = .fault .keyWaitUnanswered) := by
  cases i
  case ldVxK x =>
    rcases execLdVxK_cases x s with ⟨k, -, e⟩ | ⟨-, e⟩ | ⟨h, e⟩
    · exact .inl ⟨_, e⟩
    · exact .inl ⟨_, e⟩
    · exact .inr ⟨x, rfl, h, e⟩
  all_goals
    refine .inl ?_
    simp only [exec]
    first
      | exact ⟨_, rfl⟩
      | (simp only [execCall, execRet, execJpV0, execAddI, execLdB, execLdMemVx, execLdVxMem, execDrw,
          execSkp, execSknp, withIndexed, keySkip]
         split <;> exact ⟨_, rfl⟩)

/-- A fetched word was in range (R83). -/
theorem pc_of_fetchWord {w : Word} (h : fetchWord s = some w) : s.pc.toNat ≤ 0xFFE := by
  unfold fetchWord at h
  split at h
  · cases h
  · omega

/-- The word a cycle fetches is the one at `pc` (R83). -/
theorem State.Fetches.fetched {w : Word} (h : s.Fetches w) : fetchWord (afterPoll s) = some w := by
  have := h.inRange
  rw [fetchWord, afterPoll_pc, afterPoll_mem, if_neg (by omega), h.high, h.low, wordOfBytes_bytes]

/-! ### Fields that a handler passes through -/

@[simp] theorem loadRegs_mem (s : State) (a n : Nat) : (loadRegs s a n).mem = s.mem := by
  induction n with
  | zero => rfl
  | succ n ih => exact ih

@[simp] theorem loadRegs_status (s : State) (a n : Nat) : (loadRegs s a n).status = s.status :=
  keptExcept_loadRegs s a n .status (by simp)

@[simp] theorem loadRegs_wait (s : State) (a n : Nat) : (loadRegs s a n).wait = s.wait :=
  keptExcept_loadRegs s a n .wait (by simp)

@[simp] theorem skipIf_status (c : Bool) (s : State) : (skipIf c s).status = s.status :=
  keptExcept_skipIf c s .status (by simp)

@[simp] theorem skipIf_wait (c : Bool) (s : State) : (skipIf c s).wait = s.wait :=
  keptExcept_skipIf c s .wait (by simp)

@[simp] theorem consumeRandom_status (s : State) : (consumeRandom s).status = s.status :=
  keptExcept_consumeRandom s .status (by simp)

@[simp] theorem consumeRandom_wait (s : State) : (consumeRandom s).wait = s.wait :=
  keptExcept_consumeRandom s .wait (by simp)

end Sys2Proof.Machine
end

