-- ==== Sys2Proof/Tests/Slice0.lean ====
section
/-! SUPPORT. Tests of one step or one decoding each. Every expected result is a worked example of the document
or a derived vector of spec/95_test_vectors.md, named in the test's comment; the words are written out from
the patterns of R64. After them, for each statement with hypotheses, a state and operands that meet them. -/

namespace Sys2Proof.Tests

open Sys2Proof.Machine

/-! ## Helpers -/

/-- One cycle on the word `w` at `pc`, the poll answering `Continue`. -/
def run (s : State) (w : Nat) : Outcome := step (s.withFetchWord 16 w)

/-- What is looked at in the next state, if there is one. -/
def look {α : Type} (f : State → α) : Outcome → Option α
  | .next s => some (f s)
  | .fault _ => none
  | .refused _ => none

/-- The state after reset with some registers set. -/
def regs (rs : List (RegIdx × Byte)) : State := rs.foldl (fun s p => s.setReg p.1 p.2) State.reset

/-- A key state in which the listed keys are down. -/
def keysDown (ks : List Nat) : Vector Bool 16 := Vector.ofFn fun k => ks.contains k.val

/-- Bytes stored in memory from `a`. -/
def withBytes (s : State) (a : Nat) (bs : List Byte) : State := s.setMem (s.mem.writeBytes a bs)

/-- A state with `sp` live frames, all of them `a`. -/
def withFrames (s : State) (sp : Fin 16) (a : Word) : State :=
  { s with sp := sp, stack := Vector.ofFn fun k => if k < sp then a else 0 }

/-- A state whose coming polls are answered as listed. -/
def withPolls (s : State) (as : List PollAnswer) : State := { s with pollAnswers := as }

/-- One cycle on the word `w` at `pc`, the polls of the cycle and of its wait answered as listed. -/
def runPolls (s : State) (w : Nat) (as : List PollAnswer) : Outcome := step (withPolls (s.withFetchWord 16 w) as)

/-! ## Well-formedness: what each check refuses

The fields of `Instr` are bit vectors of the operands' widths, so no term of it is ill-formed (R11, R62). -/

theorem test_wf_refuses_oversized_image : imageWf (List.replicate 0xE01 0) = false := by
  rw [imageWf, List.length_replicate]
  decide

theorem test_wf_admits_largest_image : imageWf (List.replicate 0xE00 0) = true := by
  rw [imageWf, List.length_replicate]
  decide

theorem test_wf_refuses_directives : AsmLine.wf (.dw 0x10000) = false ∧ AsmLine.wf (.db [0x12, 0x100]) = false ∧
    assemble [.instr .cls, .dw 0x10000] = none := by decide

theorem test_wf_instr : Instr.wf (.drw 0xF 0xF 0xF) = true ∧ Instr.wf (.ldI 0xFFF) = true ∧
    Instr.wf (.rnd 0xF 0xFF) = true := by decide

theorem test_memory_wf_refuses : ¬ Memory.wf [(0x301, 1), (0x300, 2)] ∧ ¬ Memory.wf [(0x300, 0)] ∧
    ¬ Memory.wf [(0x1000, 1)] := by decide

/-! ## Decoding, by format (R64's patterns bit by bit, `x = 3`, `y = 5`) -/

theorem test_decode_fixed :
    decodeWord 0b0000_0000_1110_0000 = some .cls ∧ decodeWord 0b0000_0000_1110_1110 = some .ret := by decide

theorem test_decode_addr :
    decodeWord 0b0001_0010_0011_0100 = some (.jp 0x234) ∧
    decodeWord 0b0010_0010_0011_0100 = some (.call 0x234) ∧
    decodeWord 0b1010_0010_0011_0100 = some (.ldI 0x234) ∧
    decodeWord 0b1011_0010_0011_0100 = some (.jpV0 0x234) := by decide

theorem test_decode_reg_imm :
    decodeWord 0b0011_0011_1010_1011 = some (.seImm 3 0xAB) ∧
    decodeWord 0b0100_0011_1010_1011 = some (.sneImm 3 0xAB) ∧
    decodeWord 0b0110_0011_1010_1011 = some (.ldImm 3 0xAB) ∧
    decodeWord 0b0111_0011_1010_1011 = some (.addImm 3 0xAB) ∧
    decodeWord 0b1100_0011_1010_1011 = some (.rnd 3 0xAB) := by decide

theorem test_decode_reg_reg :
    decodeWord 0b0101_0011_0101_0000 = some (.seReg 3 5) ∧
    decodeWord 0b1000_0011_0101_0000 = some (.ldReg 3 5) ∧
    decodeWord 0b1000_0011_0101_0001 = some (.or 3 5) ∧
    decodeWord 0b1000_0011_0101_0010 = some (.and 3 5) ∧
    decodeWord 0b1000_0011_0101_0011 = some (.xor 3 5) ∧
    decodeWord 0b1000_0011_0101_0100 = some (.addReg 3 5) ∧
    decodeWord 0b1000_0011_0101_0101 = some (.sub 3 5) ∧
    decodeWord 0b1000_0011_0101_0110 = some (.shr 3 5) ∧
    decodeWord 0b1000_0011_0101_0111 = some (.subn 3 5) ∧
    decodeWord 0b1000_0011_0101_1110 = some (.shl 3 5) ∧
    decodeWord 0b1001_0011_0101_0000 = some (.sneReg 3 5) := by decide

theorem test_decode_draw : decodeWord 0b1101_0011_0101_0111 = some (.drw 3 5 7) := by decide

theorem test_decode_reg :
    decodeWord 0b1110_0011_1001_1110 = some (.skp 3) ∧
    decodeWord 0b1110_0011_1010_0001 = some (.sknp 3) ∧
    decodeWord 0b1111_0011_0000_0111 = some (.ldVxDt 3) ∧
    decodeWord 0b1111_0011_0000_1010 = some (.ldVxK 3) ∧
    decodeWord 0b1111_0011_0001_0101 = some (.ldDtVx 3) ∧
    decodeWord 0b1111_0011_0001_1000 = some (.ldStVx 3) ∧
    decodeWord 0b1111_0011_0001_1110 = some (.addI 3) ∧
    decodeWord 0b1111_0011_0010_1001 = some (.ldF 3) ∧
    decodeWord 0b1111_0011_0011_0011 = some (.ldB 3) ∧
    decodeWord 0b1111_0011_0101_0101 = some (.ldMemVx 3) ∧
    decodeWord 0b1111_0011_0110_0101 = some (.ldVxMem 3) := by decide

/-- Illegal words of 2.7, at least one for each `op1` that has some. -/
theorem test_decode_illegal :
    (List.all [0x0000, 0x00E1, 0x01E0, 0x0FFF, 0x5121, 0x512F, 0x8128, 0x812D, 0x812F, 0x9121]
      fun w => decodeWord w == none) = true ∧
    (List.all [0xE000, 0xE19F, 0xE1A0, 0xF000, 0xF108, 0xF11F, 0xF164, 0xF1FF, 0xF185]
      fun w => decodeWord w == none) = true := by decide

/-- Big-endian, and a truncated instruction is refused by name (R42, R60). -/
theorem test_decode_bytes :
    decode [0x12, 0x34, 0x56] = .ok (.jp 0x234, [0x56]) ∧ decodeTableWord 16 0x1234 = some (.jp 0x234) := by
  decide

/-- Two lines of program P2 (section 3). -/
theorem test_assemble : assemble [.instr (.ldB 3), .instr .ret, .dw 0x0000, .db [0xC3, 0xFF]] =
    some [0xF3, 0x33, 0x00, 0xEE, 0x00, 0x00, 0xC3, 0xFF] ∧
    Instr.assembly (.ldB 3) = "LD B, V3" ∧ Instr.assembly (.shl 2 0) = "SHL V2" := by decide

/-! ## Control transfer (2.1) -/

/-- CF1. -/
theorem test_jp : look (·.pc) (run (State.reset.setPc 0x20A) 0x1204) = some 0x204 := by decide

/-- CF5. -/
theorem test_call : look (fun t => (t.pc, t.sp, t.stack[0])) (run (State.reset.setPc 0x204) 0x220A) =
    some (0x20A, 1, 0x204) := by decide

/-- CF7. -/
theorem test_call_overflow : look (fun t => (t.status, t.pc, t.sp)) (run (withFrames State.reset 15 0x300) 0x2300) =
    some (.halted .stackOverflow 0x200, 0x200, 15) := by decide

/-- CF8. -/
theorem test_ret : look (fun t => (t.pc, t.sp, t.stack[0]))
    (run ((withFrames State.reset 1 0x204).setPc 0x20C) 0x00EE) = some (0x206, 0, 0x204) := by decide

/-- CF9. -/
theorem test_ret_underflow : look (fun t => (t.status, t.pc)) (run State.reset 0x00EE) =
    some (.halted .stackUnderflow 0x200, 0x200) := by decide

/-- CF15. -/
theorem test_jpV0_uses_register_zero : look (·.pc) (run (regs [(0, 0xFF), (2, 1)]) 0xB2FF) = some 0x3FE := by decide

/-- CF12. -/
theorem test_jpV0_out_of_range : look (fun t => (t.status, t.pc)) (run (regs [(0, 0xFF)]) 0xBF01) =
    some (.halted .pcOutOfRange 0x1000, 0x200) := by decide

/-- CF18, CF17. -/
theorem test_seImm : look (·.pc) (run (regs [(0xF, 0xFF)]) 0x3FFF) = some 0x204 ∧
    look (·.pc) (run ((regs [(0, 4)]).setPc 0x208) 0x3000) = some 0x20A := by decide

/-- CF19, CF20. -/
theorem test_sneImm : look (·.pc) (run (regs [(2, 7)]) 0x4207) = some 0x202 ∧
    look (·.pc) (run (regs [(2, 7)]) 0x4208) = some 0x204 := by decide

/-- CF21, CF22. -/
theorem test_seReg : look (·.pc) (run (regs [(1, 9), (2, 9)]) 0x5120) = some 0x204 ∧
    look (·.pc) (run (regs [(1, 9), (2, 8)]) 0x5120) = some 0x202 := by decide

/-- CF24, CF25. -/
theorem test_sneReg : look (·.pc) (run (regs [(1, 9), (2, 8)]) 0x9120) = some 0x204 ∧
    look (·.pc) (run (regs [(3, 9)]) 0x9330) = some 0x202 := by decide

/-! ## ALU (2.2) -/

/-- A1. -/
theorem test_ldImm : look (fun t => (t.reg 0xA, t.pc)) (run State.reset 0x6A2B) = some (0x2B, 0x202) := by decide

/-- A4: no carry is reported. -/
theorem test_addImm : look (fun t => (t.reg 3, t.reg 0xF)) (run (regs [(3, 0xFF)]) 0x7301) = some (0, 0) := by decide

/-- A6. -/
theorem test_ldReg : look (·.reg 1) (run (regs [(2, 0x77)]) 0x8120) = some 0x77 := by decide

/-- A7. -/
theorem test_or : look (fun t => (t.reg 1, t.reg 0xF)) (run (regs [(1, 0x0F), (2, 0xF0), (0xF, 0x55)]) 0x8121) =
    some (0xFF, 0x55) := by decide

/-- A8. -/
theorem test_and : look (·.reg 1) (run (regs [(1, 0xF0), (2, 0x3C)]) 0x8122) = some 0x30 := by decide

/-- A9. -/
theorem test_xor : look (·.reg 1) (run (regs [(1, 0xF0), (2, 0x3C)]) 0x8123) = some 0xCC := by decide

/-- E3. -/
theorem test_addReg : look (fun t => (t.reg 1, t.reg 0xF)) (run (regs [(1, 150), (3, 150)]) 0x8134) =
    some (44, 1) := by decide

/-- A15: the result survives. -/
theorem test_addReg_flag_destination : look (·.reg 0xF) (run (regs [(1, 0xF0), (0xF, 0x20)]) 0x8F14) =
    some 0x10 := by decide

/-- A20: equality is no borrow. -/
theorem test_sub_equal : look (fun t => (t.reg 1, t.reg 0xF)) (run (regs [(1, 7), (2, 7)]) 0x8125) =
    some (0, 1) := by decide

/-- A23. -/
theorem test_sub_flag_destination : look (·.reg 0xF) (run (regs [(1, 5), (0xF, 3)]) 0x8F15) = some 0xFE := by decide

/-- A26: `V[y]` is not read. -/
theorem test_shr : look (fun t => (t.reg 1, t.reg 2, t.reg 0xF)) (run (regs [(1, 0xFE), (2, 0xFF), (0xF, 7)]) 0x8126) =
    some (0x7F, 0xFF, 0) := by decide

/-- A27. -/
theorem test_shr_flag_destination : look (·.reg 0xF) (run (regs [(0xF, 0xFF)]) 0x8FF6) = some 0 := by decide

/-- A28: the comparison is strict. -/
theorem test_subn_equal : look (fun t => (t.reg 1, t.reg 0xF)) (run (regs [(1, 7), (2, 7)]) 0x8127) =
    some (0, 0) := by decide

/-- A31: the flag survives. -/
theorem test_subn_flag_destination : look (·.reg 0xF) (run (regs [(1, 9), (0xF, 4)]) 0x8F17) = some 1 := by decide

/-- A33: the flag is `0x80`. -/
theorem test_shl : look (fun t => (t.reg 1, t.reg 2, t.reg 0xF)) (run (regs [(1, 0xFF)]) 0x812E) =
    some (0xFE, 0, 0x80) := by decide

/-- A36. -/
theorem test_shl_flag_destination : look (·.reg 0xF) (run (regs [(0xF, 0xC0)]) 0x8F0E) = some 0 := by decide

/-! ## Index register and memory (2.3) -/

/-- M1. -/
theorem test_ldI : look (·.i) (run (State.reset.setIndex 0x1009) 0xA300) = some 0x300 := by decide

/-- M6: not masked. -/
theorem test_addI : look (fun t => (t.i, t.reg 0xF)) (run ((regs [(0, 0x0A)]).setIndex 0xFFF) 0xF01E) =
    some (0x1009, 1) := by decide

/-- M9. -/
theorem test_addI_overflow : look (fun t => (t.status, t.i, t.reg 0xF)) (run ((regs [(0, 0xFF)]).setIndex 0xFF01) 0xF01E) =
    some (.halted .indexOverflow 0x10000, 0xFF01, 0) := by decide

/-- M12. -/
theorem test_ldF : glyphAddr 0x0A = Config.fontsetLocation.val + 50 := rfl

/-- M20: the last three bytes of memory. -/
theorem test_ldB : look (fun t => (t.mem.read 0xFFD, t.mem.read 0xFFE, t.mem.read 0xFFF))
    (run ((regs [(3, 152)]).setIndex 0xFFD) 0xF333) = some (1, 5, 2) := by decide

/-- M21. -/
theorem test_ldB_out_of_range : look (fun t => (t.status, t.mem.read 0xFFE, t.mem.read 0xFFF))
    (run ((regs [(3, 152)]).setIndex 0xFFE) 0xF333) = some (.halted .memoryOutOfRange 0x1000, 0, 0) := by decide

/-- M23. -/
theorem test_ldMemVx : look (fun t => (t.mem.read 0x400, t.mem.read 0x401, t.i))
    (run ((regs [(0, 0xAA), (1, 0xBB)]).setIndex 0x400) 0xF055) = some (0xAA, 0, 0x400) := by decide

/-- M25. -/
theorem test_ldMemVx_out_of_range : look (fun t => (t.status, t.mem.read 0xFF1))
    (run ((regs [(0, 0xAA)]).setIndex 0xFF1) 0xFF55) = some (.halted .memoryOutOfRange 0x1000, 0) := by decide

/-- M28. -/
theorem test_ldVxMem : look (fun t => (t.reg 0, t.reg 1, t.reg 2, t.reg 3, t.i))
    (run (withBytes ((regs [(3, 0x77)]).setIndex 0x300) 0x300 [1, 5, 2]) 0xF265) =
    some (1, 5, 2, 0x77, 0x300) := by decide

/-- M31. -/
theorem test_ldVxMem_out_of_range : look (fun t => (t.status, t.reg 0))
    (run (withBytes ((regs [(0, 7)]).setIndex 0xFFF) 0xFFF [9]) 0xF165) =
    some (.halted .memoryOutOfRange 0x1000, 7) := by decide

/-! ## Timers (2.4) -/

/-- T1: the tick of the same cycle. -/
theorem test_ldDtVx : look (·.dt) (run (regs [(0, 10)]) 0xF015) = some 9 := by decide

/-- T4. -/
theorem test_ldVxDt : look (fun t => (t.reg 1, t.dt)) (run (State.reset.setDelay 9) 0xF107) = some (9, 8) := by decide

/-- T7. -/
theorem test_ldStVx : look (fun t => (t.st, t.dt)) (run ((regs [(2, 0xFF)]).setDelay 3) 0xF218) = some (0xFE, 2) := by
  decide

/-! ## Ports (2.5) -/

/-- IO1. -/
theorem test_cls : look (fun t => (t.screen.pixel 3 5, t.reg 0xF))
    (run ((regs [(0xF, 1)]).setScreen (Screen.cleared.flip 3 5)) 0x00E0) = some (false, 1) := by decide

/-- IO5: wrap around both edges. -/
theorem test_drw_wraps : look (fun t => (t.screen.pixel 1 63, t.screen.pixel 1 0, t.screen.pixel 1 1, t.reg 0xF))
    (run (withBytes ((regs [(0, 255), (1, 33)]).setIndex 0x300) 0x300 [0xC0]) 0xD011) =
    some (true, true, false, 0) := by decide

/-- IO3, with one of IO2's pixels: collision. -/
theorem test_drw_collision : look (fun t => (t.screen.pixel 0 0, t.screen.pixel 0 3, t.reg 0xF))
    (run ((withBytes (State.reset.setIndex 0x300) 0x300 [0x90]).setScreen (Screen.cleared.flip 0 0)) 0xD011) =
    some (false, true, 1) := by decide

/-- IO12, IO16. -/
theorem test_skp : look (·.pc) (run (((regs [(3, 0xA)]).setPc 0x220).setKeys (keysDown [0xA])) 0xE39E) = some 0x224 ∧
    look (·.status) (run (regs [(3, 0x10)]) 0xE39E) = some (.halted .keyOutOfRange 0x10) := by decide

/-- IO14, IO17. -/
theorem test_sknp : look (·.pc) (run ((regs [(3, 0xA)]).setPc 0x220) 0xE3A1) = some 0x224 ∧
    look (·.status) (run (regs [(3, 0xFF)]) 0xE3A1) = some (.halted .keyOutOfRange 0xFF) := by decide

/-- IO19: one step, with a held key that does not count, and one tick. -/
theorem test_ldVxK : look (fun t => (t.reg 5, t.pc, t.dt, t.pollAnswers))
    (runPolls (State.reset.setDelay 4) 0xF50A
      [.proceed (keysDown [2]) 0, .proceed (keysDown [2]) 2, .proceed (keysDown [2, 7]) 2, .quit]) =
    some (7, 0x202, 3, [.quit]) := by decide

/-- IO20. -/
theorem test_ldVxK_quit : look (fun t => (t.status, t.reg 5, t.pc, t.dt))
    (runPolls ((regs [(5, 0x33)]).setDelay 4) 0xF50A [.proceed (keysDown []) 0, .quit]) =
    some (.stopped, 0x33, 0x200, 4) := by decide

/-- IO23, IO24. -/
theorem test_rnd : look (·.reg 3) (run { State.reset with randomAnswers := [0xB7] } 0xC30F) = some 0x07 ∧
    look (·.reg 3) (run { State.reset with randomAnswers := [0xB7] } 0xC300) = some 0 := by decide

/-! ## The cycle (2.6) -/

/-- T10: no tick in a fatal cycle. -/
theorem test_unknown_opcode : look (fun t => (t.status, t.dt, t.st, t.pc))
    (run ((State.reset.setDelay 5).setSound 2) 0x0000) = some (.halted .unknownOpcode 0, 5, 2, 0x200) := by decide

/-- Y4. -/
theorem test_fetch_out_of_range : look (·.status)
    (step (withPolls (State.reset.setPc 0xFFF) [.proceed (keysDown []) 0])) = some (.halted .pcOutOfRange 0xFFF) := by
  decide

/-- Y5, Y6. -/
theorem test_quit_comes_first : look (fun t => (t.status, t.pc))
    (step (withPolls (State.reset.setPc 0xFFF) [.quit])) = some (.stopped, 0xFFF) := by decide

/-- Y8. -/
theorem test_stopped_engine_has_no_step : step (State.reset.setStatus .stopped) = .fault .engineNotRunning := rfl

/-! ## Witnesses: what meets the hypotheses of each statement that has some, clause by clause -/

/-- The state in which the next step fetches `w` (`State.Fetches`). -/
def fetching (s : State) (w : Nat) : State := s.withFetchWord 16 w

/-- A call suspended in `Fx0A`, with key 2 held since before the wait. -/
def waiting : State := withPolls ((State.reset.setKeys (keysDown [2])).setWait (some 5)) []

theorem witness_EncodeOfDecode : decodeWord 0x8AB6 = some (.shr 0xA 0xB) ∧ decodeWord 0xFFFF = none := by decide

theorem witness_DecoderFollows : decodeWord 0xF265 = some (.ldVxMem 2) ∧ decodeWord 0x512F = none := by decide

theorem witness_NoWordSelectsTwoRows : (⟨"ADD_REG", 0x8004, 0xF00F⟩ : OpcodeRow) ∈ opcodeRows ∧
    OpcodeRow.selects ⟨"ADD_REG", 0x8004, 0xF00F⟩ 0x8134 = true := by decide

theorem witness_Fetches : (fetching State.reset 0x8134).Fetches 0x8134 :=
  ⟨rfl, rfl, ⟨_, _, rfl⟩, by decide, by decide, by decide⟩

/-- The last fetchable address. -/
theorem witness_Fetches_last : (fetching (State.reset.setPc 0xFFE) 0x6001).Fetches 0x6001 :=
  ⟨rfl, rfl, ⟨_, _, rfl⟩, by decide, by decide, by decide⟩

theorem witness_StepRunsTheDecodedInstruction : (fetching State.reset 0x8134).Fetches 0x8134 ∧
    decodeWord 0x8134 = some (.addReg 1 3) ∧ ∃ a, (fetching State.reset 0x8134).pollAnswers = [a] :=
  ⟨witness_Fetches, by decide, _, rfl⟩

theorem witness_TimersTick_completed : ∃ t, (fetching State.reset 0x8134).Fetches 0x8134 ∧
    decodeWord 0x8134 = some (.addReg 1 3) ∧
    exec (.addReg 1 3) (afterPoll (fetching State.reset 0x8134)) = .next t ∧ t.status = .running ∧
    t.wait = none :=
  ⟨_, witness_Fetches, by decide, rfl, rfl, rfl⟩

/-- A suspended `Fx0A` whose key comes with the second of two more answers. -/
theorem witness_TimersTick_resumed : ∃ t, (⟨waiting, true⟩ : Session).machine.wait = some 5 ∧
    exec (.ldVxK 5) (waiting.addPolls [.proceed (keysDown [2]) 0, .proceed (keysDown [2, 7]) 0]) = .next t ∧
    t.status = .running ∧ t.reg 5 = 7 := ⟨_, rfl, rfl, by decide, by decide⟩

theorem witness_TimersTick_not_completed :
    ∃ t, step (fetching State.reset 0x0000) = .next t ∧ t.status ≠ .running := ⟨_, rfl, by decide⟩

/-- A step that completes a cycle, a host's call of it, and a suspended call. -/
theorem witness_SuspendedCycleGoesOnWaiting : (∃ t, step (fetching State.reset 0xF50A) = .next t) ∧
    (∃ b, (⟨fetching State.reset 0xF50A, false⟩ : Session).apply .step = some b) ∧
    (⟨waiting, true⟩ : Session).machine.wait = some 5 := ⟨⟨_, rfl⟩, ⟨_, rfl⟩, rfl⟩

theorem witness_QuitAtThePoll : ∃ s : State, s.status = .running ∧ s.wait = none ∧ pollAnswer s = .quit :=
  ⟨withPolls State.reset [.quit], rfl, rfl, rfl⟩

/-- The first address that cannot be fetched. -/
theorem witness_FetchBeyondMemory : ∃ s : State, s.status = .running ∧ s.wait = none ∧
    pollAnswer s = .proceed (keysDown []) 0 ∧ s.pc.toNat = 0xFFF :=
  ⟨withPolls (State.reset.setPc 0xFFF) [.proceed (keysDown []) 0], rfl, rfl, rfl, rfl⟩

theorem witness_UnknownOpcode : (fetching State.reset 0x00EF).Fetches 0x00EF ∧ decodeWord 0x00EF = none :=
  ⟨⟨rfl, rfl, ⟨_, _, rfl⟩, by decide, by decide, by decide⟩, by decide⟩

theorem witness_OnlyARunningEngine : State.reset.status = .running ∧ State.reset.wait = none ∧
    waiting.status = .running ∧ waiting.wait ≠ none ∧
    (State.reset.setStatus .stopped).status ≠ .running ∧
    (State.reset.setStatus (.halted .unknownOpcode 0)).status ≠ .running := by decide

/-- One state for each line of `EachInstructionRaisesOnlyItsOwnKind`, most at the least operand that
faults. -/
theorem witness_FatalInstructions :
    look (·.status) (exec (.call 0x300) (withFrames State.reset 15 0x300)) = some (.halted .stackOverflow 0x200) ∧
    look (·.status) (exec .ret State.reset) = some (.halted .stackUnderflow 0x200) ∧
    look (·.status) (exec (.jpV0 0xF01) (regs [(0, 0xFF)])) = some (.halted .pcOutOfRange 0x1000) ∧
    look (·.status) (exec (.addI 0) ((regs [(0, 0xFF)]).setIndex 0xFF01)) =
      some (.halted .indexOverflow 0x10000) ∧
    look (·.status) (exec (.skp 3) (regs [(3, 16)])) = some (.halted .keyOutOfRange 16) ∧
    look (·.status) (exec (.sknp 3) (regs [(3, 0xFF)])) = some (.halted .keyOutOfRange 0xFF) := by decide

theorem witness_FatalAccesses :
    look (·.status) (exec (.ldB 3) (State.reset.setIndex 0xFFE)) = some (.halted .memoryOutOfRange 0x1000) ∧
    look (·.status) (exec (.ldMemVx 0xF) (State.reset.setIndex 0xFF1)) = some (.halted .memoryOutOfRange 0x1000) ∧
    look (·.status) (exec (.ldVxMem 1) (State.reset.setIndex 0xFFF)) = some (.halted .memoryOutOfRange 0x1000) ∧
    look (·.status) (exec (.drw 0 0 2) (State.reset.setIndex 0xFFF)) = some (.halted .memoryOutOfRange 0x1000) := by
  decide

theorem witness_AccessBeyondMemory : 0xFFF < indexedAddr (State.reset.setIndex 0xFFE) 2 ∧
    0xFFF < indexedAddr (State.reset.setIndex 0xFF1) (0xF : RegIdx).toNat ∧
    (1 : Nibble) ≠ 0 ∧ 0xFFF < indexedAddr (State.reset.setIndex 0x1000) ((1 : Nibble).toNat - 1) := by decide

/-- The invariant is met by a state about to run, by one with frames, and by a suspended one. -/
theorem witness_Inv : (fetching State.reset 0x2300).Inv ∧ (fetching (withFrames State.reset 15 0xFFE) 0x00EE).Inv ∧
    waiting.Inv :=
  ⟨⟨by decide, by decide, by decide, by decide, by decide⟩,
   ⟨by decide, by decide, by decide, by decide, by decide⟩,
   ⟨by decide, by decide, by decide, by decide, by decide⟩⟩

theorem witness_EveryStepKeepsTheInvariant : ∃ t, (fetching State.reset 0x2300).Inv ∧
    step (fetching State.reset 0x2300) = .next t := ⟨_, witness_Inv.1, rfl⟩

theorem witness_EveryHostMoveKeepsTheInvariant :
    (∃ b, Session.boot.machine.Inv ∧ Session.boot.apply (.load [0x12, 0x00]) = some b) ∧
    ∃ b, (⟨waiting, true⟩ : Session).machine.Inv ∧
      (⟨waiting, true⟩ : Session).answer [.proceed (keysDown [2, 7]) 0] = some b :=
  ⟨⟨_, ⟨by decide, by decide, by decide, by decide, by decide⟩, rfl⟩, _, witness_Inv.2.2, rfl⟩

theorem witness_InstructionsChangeOnlyTheirOwnParts : ∃ t, State.reset.status = .running ∧
    exec (.addReg 1 3) State.reset = .next t ∧ t.status = .running := ⟨_, rfl, rfl, rfl⟩

theorem witness_MemoryChangesOnlyWhere : ∃ t, exec (.ldB 3) (State.reset.setIndex 0x300) = .next t ∧
    0x2FF < indexedAddr (State.reset.setIndex 0x300) 0 ∧
    indexedAddr (State.reset.setIndex 0x300) (Instr.storedBytes (.ldB 3)) ≤ 0x303 :=
  ⟨_, rfl, by decide, by decide⟩

theorem witness_CanonicalMemories : ∃ m : Memory, m ≠ [] ∧ m.wf ∧ ∀ a, m.read a = m.read a :=
  ⟨[(0x300, 5), (0xFFF, 7)], by decide, by decide, fun _ => rfl⟩

theorem witness_Call : (withFrames State.reset 14 0x300).sp.val < 15 ∧
    (withFrames State.reset 15 0x300).sp = 15 := by decide

theorem witness_Return : (14 : Fin 16).val + 1 = (withFrames State.reset 15 0x300).sp.val ∧
    (0 : Fin 16).val + 1 = (withFrames State.reset 1 0x300).sp.val ∧ State.reset.sp = 0 := by decide

theorem witness_JumpWithOffset : ((regs [(0, 0xFF)]).reg 0).toNat + (0xF00 : Addr12).toNat = 0xFFF ∧
    ((regs [(0, 0xFF)]).reg 0).toNat + (0xF01 : Addr12).toNat = 0x1000 := by decide

/-- A subroutine that changed a register, and called and returned itself: the dead slot 14 was rewritten. -/
theorem witness_ReturnUndoesTheCall : ∃ t, exec (.call 0x300) (withFrames State.reset 13 0x280) = .next t ∧
    ({ t.setReg 1 7 with stack := t.stack.set 14 0x304 } : State).sp = t.sp ∧
    (∀ k : Fin 16, k < t.sp → (t.stack.set 14 0x304)[k.val] = t.stack[k.val]) ∧
    (t.stack.set 14 0x304)[14] ≠ t.stack[14] := ⟨_, rfl, rfl, by decide, by decide⟩

/-- The deepest call, and one from the empty stack. -/
theorem witness_ReturnUndoesTheCall_depth : (withFrames State.reset 14 0x300).sp.val < 15 ∧
    State.reset.sp.val < 15 := by decide

theorem witness_flag_destination : (0xE : RegIdx) ≠ 0xF ∧ (0xF : RegIdx) = 0xF := by decide

theorem witness_AddToIndex :
    ((regs [(0, 0xFE)]).setIndex 0xFF01).i.toNat + (((regs [(0, 0xFE)]).setIndex 0xFF01).reg 0).toNat = 0xFFFF ∧
    ((regs [(0, 0xFF)]).setIndex 0xFF01).i.toNat + (((regs [(0, 0xFF)]).setIndex 0xFF01).reg 0).toNat = 0x10000 := by
  decide

theorem witness_DecimalStore : indexedAddr (State.reset.setIndex 0xFFD) 2 = 0xFFF := by decide

theorem witness_RegisterTransfer : indexedAddr (State.reset.setIndex 0xFF0) (0xF : RegIdx).toNat = 0xFFF ∧
    indexedAddr (State.reset.setIndex 0xFFF) (0 : RegIdx).toNat = 0xFFF := by decide

/-- The registers are overwritten in between. -/
theorem witness_LoadAfterDump : ∃ t, indexedAddr (State.reset.setIndex 0xFF0) (0xF : RegIdx).toNat ≤ 0xFFF ∧
    exec (.ldMemVx 0xF) (State.reset.setIndex 0xFF0) = .next t ∧ kept t (t.setReg 1 7) .memory ∧
    (t.setReg 1 7).i = (State.reset.setIndex 0xFF0).i := ⟨_, by decide, rfl, fun _ => rfl, rfl⟩

/-- Program P4, and the last word of memory. -/
theorem witness_StoredBytes : ∃ s s' : State, (1 ≤ (1 : RegIdx).toNat ∧ s.pc.toNat ≤ 0xFFC ∧
    s.i.toNat = s.pc.toNat + 2 ∧ indexedAddr s (1 : RegIdx).toNat ≤ 0xFFF) ∧
    s'.pc.toNat = 0xFFC ∧ s'.i.toNat = s'.pc.toNat + 2 ∧ indexedAddr s' (1 : RegIdx).toNat ≤ 0xFFF :=
  ⟨(State.reset.setPc 0x206).setIndex 0x208, (State.reset.setPc 0xFFC).setIndex 0xFFE, by decide, by decide,
    by decide, by decide⟩

theorem witness_Timers : (fetching State.reset 0xF107).Fetches (ofNibblesByte 0xF 1 0x07) ∧
    (fetching State.reset 0xF115).Fetches (ofNibblesByte 0xF 1 0x15) ∧
    (fetching State.reset 0xF118).Fetches (ofNibblesByte 0xF 1 0x18) :=
  ⟨⟨rfl, rfl, ⟨_, _, rfl⟩, by decide, by decide, by decide⟩,
   ⟨rfl, rfl, ⟨_, _, rfl⟩, by decide, by decide, by decide⟩,
   ⟨rfl, rfl, ⟨_, _, rfl⟩, by decide, by decide, by decide⟩⟩

/-- A height of 0 where no byte may be read (IO7), and one row at the last byte (IO8). -/
theorem witness_Draw : (0 : Nibble) = 0 ∧
    indexedAddr (State.reset.setIndex 0xFFF) ((1 : Nibble).toNat - 1) = 0xFFF := by decide

/-- One pixel a sprite covers (IO5's second pixel, wrapped) and one it does not. -/
theorem witness_spriteCovers :
    spriteCovers (withBytes State.reset 0x300 [0xC0]).mem 0x300 255 33 1 1 0 ∧
    ¬ spriteCovers (withBytes State.reset 0x300 [0xC0]).mem 0x300 255 33 0 1 0 :=
  ⟨⟨0, 1, by decide, by decide, by decide, by decide, by decide⟩, fun ⟨_, _, h, _⟩ => absurd h (Nat.not_lt_zero _)⟩

theorem witness_KeySkips : ((regs [(3, 15)]).reg 3).toNat = (15 : Fin 16).val ∧
    ((regs [(3, 0)]).reg 3).toNat = (0 : Fin 16).val ∧ 15 < ((regs [(3, 16)]).reg 3).toNat := by decide

/-- A quiet poll with a held key; then two more keys go down together, and the environment reports key 15, or
key 9, which stays up. -/
theorem witness_KeyWaitWrites : ∃ s : State, s.pollAnswers =
      [.proceed (keysDown [2]) 0] ++ .proceed (keysDown [2, 3, 15]) 15 :: [.proceed (keysDown []) 9] ∧
    quietPolls s.keys [.proceed (keysDown [2]) 0] (keysDown [2]) ∧
    (keysDown [2])[3] = false ∧ (keysDown [2, 3, 15])[3] = true ∧
    (keysDown [2])[15] = false ∧ (keysDown [2, 3, 15])[15] = true ∧ (keysDown [2, 3, 15])[9] = false :=
  ⟨withPolls waiting [.proceed (keysDown [2]) 0, .proceed (keysDown [2, 3, 15]) 15, .proceed (keysDown []) 9],
    rfl, ⟨by decide, rfl⟩, by decide, by decide, by decide, by decide, by decide⟩

/-- No listed poll, and two in which the held key stays down and is then let go. -/
theorem witness_KeyWaitStaysSuspended : quietPolls waiting.keys waiting.pollAnswers (keysDown [2]) ∧
    quietPolls (keysDown [2]) [.proceed (keysDown [2]) 9, .proceed (keysDown []) 0] (keysDown []) :=
  ⟨rfl, by decide, by decide, rfl⟩

theorem witness_QuitInTheKeyWait : ∃ s : State,
    s.pollAnswers = [.proceed (keysDown [2]) 0] ++ .quit :: [] ∧
    quietPolls s.keys [.proceed (keysDown [2]) 0] (keysDown [2]) :=
  ⟨withPolls waiting [.proceed (keysDown [2]) 0, .quit], rfl, by decide, rfl⟩

theorem witness_RandomByte :
    ({ State.reset with randomAnswers := [0xB7, 0x01] } : State).randomAnswers = [0xB7, 0x01] ∧
    State.reset.randomAnswers = [] ∧ (0x0F : Byte).getLsbD 4 = false ∧ (0x07 : Byte) &&& ~~~0x0F = 0 :=
  ⟨rfl, rfl, by decide, by decide⟩

theorem witness_ResetMemory : Config.fontsetLocation.val + 80 ≤ 0x200 ∧
    (0x200 < Config.fontsetLocation.val ∨ Config.fontsetLocation.val + 80 ≤ 0x200) := by
  have := Config.fontsetLocation.isLt
  omega

theorem witness_ProgramLoad : (List.replicate 0xE00 (0 : Byte)).length ≤ 0xE00 ∧
    0xE00 < (List.replicate 0xE01 (0 : Byte)).length := by
  rw [List.length_replicate, List.length_replicate]
  decide

/-- Every move where the host has it: after boot, also with the largest image, and in a halted engine. -/
theorem witness_HostMoves_had :
    (∃ b, Session.boot.apply .init = some b) ∧ (∃ b, Session.boot.apply (.load [0x12, 0x00]) = some b) ∧
    (Session.boot.started = false ∧ Session.boot.machine.wait = none ∧
      (List.replicate 0xE00 (0 : Byte)).length ≤ 0xE00) ∧
    (∃ b, (⟨fetching State.reset 0x8134, false⟩ : Session).apply .step = some b) ∧
    (⟨waiting, true⟩ : Session).machine.wait ≠ none ∧
    (∃ b, (⟨State.reset.setStatus (.halted .unknownOpcode 0), true⟩ : Session).apply (.setReg 3 7) = some b) ∧
    ∃ b, (⟨State.reset.setStatus .stopped, true⟩ : Session).apply (.restore Screen.cleared) = some b :=
  ⟨⟨_, rfl⟩, ⟨_, rfl⟩, ⟨rfl, rfl, by rw [List.length_replicate]⟩, ⟨_, rfl⟩, by decide, ⟨_, rfl⟩, _, rfl⟩

/-- What takes each move away, and the one way from a stopped engine to a running one. -/
theorem witness_HostMoves_refused : (⟨State.reset, true⟩ : Session).started = true ∧ waiting.wait ≠ none ∧
    (State.reset.setStatus .stopped).status ≠ .running ∧
    ∃ b, (⟨State.reset.setStatus .stopped, true⟩ : Session).apply .init = some b ∧ b.machine.status = .running :=
  ⟨rfl, by decide, by decide, _, rfl, rfl⟩

end Sys2Proof.Tests
end

section
/-! The contents of memory after initialization (R29): what an address reads as when memory lists nothing. -/

namespace Sys2Proof.Machine

/-- The font lies below `0x200`, where programs begin (R4). -/
theorem fontsetLocation_add_lt_programBase (j : Fin 80) :
    Config.fontsetLocation.val + j.val < Config.programBase := by
  have hloc := Config.fontsetLocation.isLt
  have hj := j.isLt
  unfold Config.programBase
  omega

theorem fontByte_fontsetLocation_add (j : Fin 80) :
    fontByte (Config.fontsetLocation.val + j.val) = some (Config.fontTable j) := by
  have hin : Config.fontsetLocation.val ≤ Config.fontsetLocation.val + j.val ∧
      Config.fontsetLocation.val + j.val - Config.fontsetLocation.val < Config.fontSize :=
    ⟨Nat.le_add_right _ _, by simp⟩
  simp [fontByte, hin]

theorem fontByte_eq_none {a : Nat}
    (ha : a < Config.fontsetLocation.val ∨ Config.fontsetLocation.val + 80 ≤ a) :
    fontByte a = none := by
  have hout : ¬ (Config.fontsetLocation.val ≤ a ∧ a - Config.fontsetLocation.val < Config.fontSize) := by
    unfold Config.fontSize
    omega
  exact dif_neg hout

theorem unlistedByte_fontsetLocation_add (j : Fin 80) :
    unlistedByte (Config.fontsetLocation.val + j.val) = Config.fontTable j := by
  rw [unlistedByte, if_pos (fontsetLocation_add_lt_programBase j), fontByte_fontsetLocation_add,
    Option.getD_some]

theorem unlistedByte_eq_zero {a : Nat}
    (ha : a < Config.fontsetLocation.val ∨ Config.fontsetLocation.val + 80 ≤ a) :
    unlistedByte a = 0 := by
  rw [unlistedByte, fontByte_eq_none ha, Option.getD_none, ite_self]

/-- Reset lists no byte, so every address reads as an unlisted one. -/
theorem reset_mem_read (a : Nat) : State.reset.mem.read a = unlistedByte a :=
  Memory.read_nil a

/-- Settles O56: reset memory lists nothing, and an unlisted address reads as the font or as 0. -/
theorem resetMemoryHoldsTheFontAndZeros : Obligations.ResetMemoryHoldsTheFontAndZeros :=
  ⟨fun j => (reset_mem_read _).trans (unlistedByte_fontsetLocation_add j),
    fun a ha => (reset_mem_read a).trans (unlistedByte_eq_zero ha)⟩

end Sys2Proof.Machine
end

section
/-! The skips that compare two bytes (R104 to R107): where they go on, and what the immediate forms do. -/

namespace Sys2Proof.Machine

theorem decodeWord_ofNibblesByte_three (x : RegIdx) (nn : Byte) :
    decodeWord (ofNibblesByte 0x3 x nn) = some (.seImm x nn) := by
  simp [decodeWord]

theorem decodeWord_ofNibblesByte_four (x : RegIdx) (nn : Byte) :
    decodeWord (ofNibblesByte 0x4 x nn) = some (.sneImm x nn) := by
  simp [decodeWord]

theorem exec_seImm (x : RegIdx) (nn : Byte) (s : State) :
    exec (.seImm x nn) s = .next (skipIf (s.reg x == nn) s) := rfl

theorem exec_sneImm (x : RegIdx) (nn : Byte) (s : State) :
    exec (.sneImm x nn) s = .next (skipIf (s.reg x != nn) s) := rfl

/-- A skip on equality goes 4 on for equal bytes and 2 on for others. -/
theorem skipIf_beq_pc (a b : Byte) (s : State) :
    (skipIf (a == b) s).pc = if a = b then s.pc + 4 else s.pc + 2 := by
  simp only [skipIf_pc, beq_iff_eq]

/-- A skip on inequality has the two ends of `skipIf_beq_pc` exchanged, so of the two exactly one skips. -/
theorem skipIf_bne_pc (a b : Byte) (s : State) :
    (skipIf (a != b) s).pc = if a = b then s.pc + 2 else s.pc + 4 := by
  simp only [skipIf_pc, bne_iff_ne, ne_eq, ite_not]

/-- Settles O27: each of the two is one skip on the comparison of `V[x]` with `nn`, which changes `pc` alone. -/
theorem immediateSkipsCompareARegister : Obligations.ImmediateSkipsCompareARegister := fun x nn s =>
  ⟨decodeWord_ofNibblesByte_three x nn, decodeWord_ofNibblesByte_four x nn,
    ⟨_, exec_seImm x nn s, skipIf_beq_pc _ _ s, keptExcept_skipIf _ s⟩,
    ⟨_, exec_sneImm x nn s, skipIf_bne_pc _ _ s, keptExcept_skipIf _ s⟩⟩

end Sys2Proof.Machine
end

section
/-! The loads and the flagless operations on one register (R120 to R125): each handler is `writeResult`, which
never names `V[0xF]`, so the flag register is kept like any other. -/

namespace Sys2Proof.Machine

/-! ### The words -/

theorem decodeWord_ofNibblesByte_six (x : RegIdx) (nn : Byte) :
    decodeWord (ofNibblesByte 0x6 x nn) = some (.ldImm x nn) := by
  simp [decodeWord]

theorem decodeWord_ofNibblesByte_seven (x : RegIdx) (nn : Byte) :
    decodeWord (ofNibblesByte 0x7 x nn) = some (.addImm x nn) := by
  simp [decodeWord]

/-- Words with `op1 = 8` are told apart by their last nibble, in `decodeAlu`. -/
theorem decodeWord_ofNibbles_eight (x y : RegIdx) (n : Nibble) :
    decodeWord (ofNibbles 0x8 x y n) = decodeAlu (ofNibbles 0x8 x y n) := by
  simp [decodeWord]

theorem decodeWord_ldReg (x y : RegIdx) : decodeWord (ofNibbles 0x8 x y 0x0) = some (.ldReg x y) := by
  rw [decodeWord_ofNibbles_eight]
  simp [decodeAlu]

theorem decodeWord_or (x y : RegIdx) : decodeWord (ofNibbles 0x8 x y 0x1) = some (.or x y) := by
  rw [decodeWord_ofNibbles_eight]
  simp [decodeAlu]

theorem decodeWord_and (x y : RegIdx) : decodeWord (ofNibbles 0x8 x y 0x2) = some (.and x y) := by
  rw [decodeWord_ofNibbles_eight]
  simp [decodeAlu]

theorem decodeWord_xor (x y : RegIdx) : decodeWord (ofNibbles 0x8 x y 0x3) = some (.xor x y) := by
  rw [decodeWord_ofNibbles_eight]
  simp [decodeAlu]

/-! ### The handlers -/

theorem exec_ldImm (x : RegIdx) (nn : Byte) (s : State) :
    exec (.ldImm x nn) s = writeResult x nn s := rfl

theorem exec_addImm (x : RegIdx) (nn : Byte) (s : State) :
    exec (.addImm x nn) s = writeResult x (s.reg x + nn) s := rfl

theorem exec_ldReg (x y : RegIdx) (s : State) :
    exec (.ldReg x y) s = writeResult x (s.reg y) s := rfl

theorem exec_or (x y : RegIdx) (s : State) :
    exec (.or x y) s = writeResult x (s.reg x ||| s.reg y) s := rfl

theorem exec_and (x y : RegIdx) (s : State) :
    exec (.and x y) s = writeResult x (s.reg x &&& s.reg y) s := rfl

theorem exec_xor (x y : RegIdx) (s : State) :
    exec (.xor x y) s = writeResult x (s.reg x ^^^ s.reg y) s := rfl

/-- `writeResult_spec` with the written byte described bit by bit. -/
theorem writeResult_bits (x : RegIdx) {b : Byte} (s : State) {f : Nat → Bool} (hf : ∀ k, b.getLsbD k = f k) :
    ∃ t, writeResult x b s = .next t ∧ (∀ k, (t.reg x).getLsbD k = f k) ∧ t.pc = s.pc + 2 ∧
      regsKept s t [x] ∧ keptExcept s t [.regs, .pc] := by
  obtain ⟨t, ht, hx, hkept⟩ := writeResult_spec x b s
  exact ⟨t, ht, fun k => hx ▸ hf k, hkept⟩

/-! ### The statements -/

/-- Settles O30: the handler is the write of `nn`. -/
theorem loadImmediateWritesTheByte : Obligations.LoadImmediateWritesTheByte := fun x nn s =>
  ⟨decodeWord_ofNibblesByte_six x nn, exec_ldImm x nn s ▸ writeResult_spec x nn s⟩

/-- Settles O31: the handler is the write of the 8-bit sum, which as a number wraps at 256. -/
theorem addImmediateWrapsWithoutAFlag : Obligations.AddImmediateWrapsWithoutAFlag := by
  intro x nn s
  obtain ⟨t, ht, hx, hkept⟩ := writeResult_spec x (s.reg x + nn) s
  have hsum : (t.reg x).toNat = ((s.reg x).toNat + nn.toNat) % 256 := by
    rw [hx, BitVec.toNat_add]
  exact ⟨decodeWord_ofNibblesByte_seven x nn, t, (exec_addImm x nn s).trans ht, hsum, hkept⟩

/-- Settles O32: each of the four handlers is one write, of `V[y]` or of the bitwise result. -/
theorem copyAndLogicWriteOneRegister : Obligations.CopyAndLogicWriteOneRegister := by
  intro x y s
  refine ⟨decodeWord_ldReg x y, decodeWord_or x y, decodeWord_and x y, decodeWord_xor x y, ?_, ?_, ?_, ?_⟩
  · rw [exec_ldReg]
    exact writeResult_spec x (s.reg y) s
  · rw [exec_or]
    exact writeResult_bits x s fun _ => BitVec.getLsbD_or
  · rw [exec_and]
    exact writeResult_bits x s fun _ => BitVec.getLsbD_and
  · rw [exec_xor]
    exact writeResult_bits x s fun _ => BitVec.getLsbD_xor

end Sys2Proof.Machine
end

section
/-! The load of the index register (R140): an address is a 16-bit number with its upper 4 bits 0. -/

namespace Sys2Proof.Machine

theorem decodeWord_ofNibbleAddr_ten (nnn : Addr12) :
    decodeWord (ofNibbleAddr 0xA nnn) = some (.ldI nnn) := by
  simp [decodeWord]

theorem exec_ldI (nnn : Addr12) (s : State) :
    exec (.ldI nnn) s = .next (advance (s.setIndex (addrOperand nnn))) := rfl

/-- Widening an operand to a word adds only zero bits, so the number stays. -/
theorem addrOperand_toNat (nnn : Addr12) : (addrOperand nnn).toNat = nnn.toNat :=
  BitVec.toNat_setWidth_of_le (by decide)

theorem keptExcept_advance_setIndex (s : State) (w : Word) :
    keptExcept s (advance (s.setIndex w)) [.index, .pc] :=
  keptExcept_trans (keptExcept_mono (keptExcept_setIndex s w) (by simp))
    (keptExcept_mono (keptExcept_advance _) (by simp))

/-- Settles O39: the handler writes the widened operand into `I` and makes the default advance. -/
theorem loadIndexWritesTheAddress : Obligations.LoadIndexWritesTheAddress := fun nnn s =>
  ⟨decodeWord_ofNibbleAddr_ten nnn, _, exec_ldI nnn s, addrOperand_toNat nnn, rfl,
    keptExcept_advance_setIndex s _⟩

end Sys2Proof.Machine
end

section
/-! A cycle from its fetched word to its tick (R80 to R88): where the word is legal the step is the handler on the
polled state, and a handler that leaves the status and the suspended call alone is followed by the tick. -/

namespace Sys2Proof.Machine

variable {s t : State}

@[simp] theorem afterPoll_reg (s : State) (r : RegIdx) : (afterPoll s).reg r = s.reg r :=
  keptExcept_afterPoll s .regs (by simp) r

@[simp] theorem afterPoll_dt (s : State) : (afterPoll s).dt = s.dt :=
  keptExcept_afterPoll s .delay (by simp)

@[simp] theorem afterPoll_st (s : State) : (afterPoll s).st = s.st :=
  keptExcept_afterPoll s .sound (by simp)

theorem State.Fetches.beginCycle_eq {w : Word} {i : Instr} (h : s.Fetches w) (hd : decodeWord w = some i) :
    beginCycle s = .dispatch i (afterPoll s) := by
  obtain ⟨keys, report, hpoll⟩ := h.polled
  simp only [beginCycle, h.running, h.betweenCycles, pollAndFetch, hpoll, fetchAndDispatch, h.fetched, hd]

/-- A fetched legal word: the step is the handler of its instruction with the end of the cycle (R86, R91). -/
theorem State.Fetches.step_eq {w : Word} {i : Instr} (h : s.Fetches w) (hd : decodeWord w = some i) :
    step s = endCycle (exec i (afterPoll s)) := by
  rw [step, h.beginCycle_eq hd]

theorem endCycle_of_cycleCompletes (h : cycleCompletes t) : endCycle (.next t) = .next (tick t) :=
  congrArg _ (if_pos h)

/-- A handler whose frame holds the status and the suspended call completes the cycle, so the tick follows
(R88). -/
theorem State.Fetches.step_eq_tick {w : Word} {i : Instr} {l : List Part} (h : s.Fetches w)
    (hd : decodeWord w = some i) (he : exec i (afterPoll s) = .next t) (hk : keptExcept (afterPoll s) t l)
    (hstatus : .status ∉ l) (hwait : .wait ∉ l) : step s = .next (tick t) := by
  have hrunning : t.status = .running := by
    rw [hk .status hstatus, afterPoll_status, h.running]
  have hbetween : t.wait = none := by
    rw [hk .wait hwait, afterPoll_wait, h.betweenCycles]
  rw [h.step_eq hd, he, endCycle_of_cycleCompletes ⟨hrunning, hbetween⟩]

end Sys2Proof.Machine
end

section
/-! The timer instructions (R161 to R163): a read of `DT` is a register write, a load of a timer changes that
timer and `pc` alone, and the tick of the cycle comes after either. -/

namespace Sys2Proof.Machine

/-! ### The words -/

/-- Words with `op1 = F` are told apart by their low byte, in `decodeMisc`. -/
theorem decodeWord_ofNibblesByte_fifteen (x : RegIdx) (nn : Byte) :
    decodeWord (ofNibblesByte 0xF x nn) = decodeMisc (ofNibblesByte 0xF x nn) := by
  simp [decodeWord]

theorem decodeWord_ldVxDt (x : RegIdx) : decodeWord (ofNibblesByte 0xF x 0x07) = some (.ldVxDt x) := by
  rw [decodeWord_ofNibblesByte_fifteen]
  simp [decodeMisc]

theorem decodeWord_ldDtVx (x : RegIdx) : decodeWord (ofNibblesByte 0xF x 0x15) = some (.ldDtVx x) := by
  rw [decodeWord_ofNibblesByte_fifteen]
  simp [decodeMisc]

theorem decodeWord_ldStVx (x : RegIdx) : decodeWord (ofNibblesByte 0xF x 0x18) = some (.ldStVx x) := by
  rw [decodeWord_ofNibblesByte_fifteen]
  simp [decodeMisc]

/-! ### The handlers -/

theorem exec_ldVxDt (x : RegIdx) (s : State) : exec (.ldVxDt x) s = writeResult x s.dt s := rfl

theorem exec_ldDtVx (x : RegIdx) (s : State) :
    exec (.ldDtVx x) s = .next (advance (s.setDelay (s.reg x))) := rfl

theorem exec_ldStVx (x : RegIdx) (s : State) :
    exec (.ldStVx x) s = .next (advance (s.setSound (s.reg x))) := rfl

@[simp] theorem advance_dt (s : State) : (advance s).dt = s.dt := rfl

@[simp] theorem advance_st (s : State) : (advance s).st = s.st := rfl

/-- The default advance adds `pc` to the parts an update changes. -/
theorem keptExcept_advance_of {s t : State} {p : Part} (h : keptExcept s t [p]) :
    keptExcept s (advance t) [p, .pc] :=
  keptExcept_trans (keptExcept_mono h (by simp)) (keptExcept_mono (keptExcept_advance t) (by simp))

theorem keptExcept_advance_setDelay (s : State) (b : Byte) :
    keptExcept s (advance (s.setDelay b)) [.delay, .pc] :=
  keptExcept_advance_of (keptExcept_setDelay s b)

theorem keptExcept_advance_setSound (s : State) (b : Byte) :
    keptExcept s (advance (s.setSound b)) [.sound, .pc] :=
  keptExcept_advance_of (keptExcept_setSound s b)

/-! ### The tick after the handler -/

theorem tick_reg (s : State) (r : RegIdx) : (tick s).reg r = s.reg r :=
  keptExcept_tick s .regs (by simp) r

theorem tick_dt_toNat (s : State) : (tick s).dt.toNat = s.dt.toNat - 1 :=
  countDown_toNat s.dt

theorem tick_st_toNat (s : State) : (tick s).st.toNat = s.st.toNat - 1 :=
  countDown_toNat s.st

theorem step_ldVxDt {x : RegIdx} {s : State} (h : s.Fetches (ofNibblesByte 0xF x 0x07)) :
    ∃ u, step s = .next u ∧ u.reg x = s.dt ∧ u.dt.toNat = s.dt.toNat - 1 := by
  obtain ⟨t, ht, hx, -, -, hkept⟩ := writeResult_spec x (afterPoll s).dt (afterPoll s)
  have hdt : t.dt = s.dt := (hkept .delay (by simp)).trans (afterPoll_dt s)
  refine ⟨tick t, h.step_eq_tick (decodeWord_ldVxDt x) ((exec_ldVxDt x _).trans ht) hkept (by simp) (by simp), ?_, ?_⟩
  · rw [tick_reg, hx, afterPoll_dt]
  · rw [tick_dt_toNat, hdt]

theorem step_ldDtVx {x : RegIdx} {s : State} (h : s.Fetches (ofNibblesByte 0xF x 0x15)) :
    ∃ u, step s = .next u ∧ u.dt.toNat = (s.reg x).toNat - 1 ∧ u.st.toNat = s.st.toNat - 1 := by
  refine ⟨_, h.step_eq_tick (decodeWord_ldDtVx x) (exec_ldDtVx x _) (keptExcept_advance_setDelay _ _)
    (by simp) (by simp), ?_, ?_⟩
  · simp [countDown_toNat]
  · simp [countDown_toNat]

theorem step_ldStVx {x : RegIdx} {s : State} (h : s.Fetches (ofNibblesByte 0xF x 0x18)) :
    ∃ u, step s = .next u ∧ u.st.toNat = (s.reg x).toNat - 1 ∧ u.dt.toNat = s.dt.toNat - 1 := by
  refine ⟨_, h.step_eq_tick (decodeWord_ldStVx x) (exec_ldStVx x _) (keptExcept_advance_setSound _ _)
    (by simp) (by simp), ?_, ?_⟩
  · simp [countDown_toNat]
  · simp [countDown_toNat]

/-! ### The statements -/

/-- Settles O47: the handler is the write of `DT` into `V[x]`, and only then does the cycle tick. -/
theorem readDelayTimerGivesTheValueBeforeTheTick : Obligations.ReadDelayTimerGivesTheValueBeforeTheTick :=
  fun x s => ⟨decodeWord_ldVxDt x, exec_ldVxDt x s ▸ writeResult_spec x s.dt s, step_ldVxDt⟩

/-- Settles O48: each handler is one load of a timer, and the cycle's tick counts both timers down after it. -/
theorem writeTimerTicksInTheSameCycle : Obligations.WriteTimerTicksInTheSameCycle := fun x s =>
  ⟨decodeWord_ldDtVx x, decodeWord_ldStVx x,
    ⟨_, exec_ldDtVx x s, rfl, rfl, keptExcept_advance_setDelay s _⟩,
    ⟨_, exec_ldStVx x s, rfl, rfl, keptExcept_advance_setSound s _⟩,
    step_ldDtVx, step_ldStVx⟩

end Sys2Proof.Machine
end

section
/-! A fetched word that matches no row (R204): the cycle ends at the decode, halted by `raiseFatal` on the polled
state, so no handler runs and no timer ticks. -/

namespace Sys2Proof.Machine

variable {s : State} {w : Word}

theorem State.Fetches.beginCycle_of_decodeWord_eq_none (h : s.Fetches w) (hd : decodeWord w = none) :
    beginCycle s = .ended (.next (raiseFatal .unknownOpcode w.toNat (afterPoll s))) := by
  obtain ⟨keys, report, hpoll⟩ := h.polled
  simp only [beginCycle, h.running, h.betweenCycles, pollAndFetch, hpoll, fetchAndDispatch, h.fetched, hd]

theorem State.Fetches.step_of_decodeWord_eq_none (h : s.Fetches w) (hd : decodeWord w = none) :
    step s = .next (raiseFatal .unknownOpcode w.toNat (afterPoll s)) := by
  rw [step, h.beginCycle_of_decodeWord_eq_none hd]

/-- A fatal condition met before the handler: the status, and what the cycle's poll changed (R177, R203). -/
theorem keptExcept_raiseFatal_afterPoll (k : FatalKind) (info : Nat) (s : State) :
    keptExcept s (raiseFatal k info (afterPoll s)) [.status, .keys, .polls] := by
  obtain ⟨-, hkept⟩ := raiseFatal_halts k info (afterPoll s)
  exact keptExcept_trans (keptExcept_mono (keptExcept_afterPoll s) (by simp)) (keptExcept_mono hkept (by simp))

/-- Settles O12: the step is the poll and then `raiseFatal`, and neither touches more than its own parts. -/
theorem unknownOpcodeIsFatalAndChangesNothing : Obligations.UnknownOpcodeIsFatalAndChangesNothing :=
  fun s w h hd => ⟨_, h.step_of_decodeWord_eq_none hd, rfl,
    keptExcept_raiseFatal_afterPoll .unknownOpcode w.toNat s⟩

end Sys2Proof.Machine
end

section
/-! The decoder and the encoder (R60 to R64): each undoes the other on legal words. -/

namespace Sys2Proof.Machine

/-! ### Decoding what was encoded -/

theorem decodeWord_ofNibblesByte_fourteen (x : RegIdx) (nn : Byte) :
    decodeWord (ofNibblesByte 0xE x nn) = decodeKey (ofNibblesByte 0xE x nn) := by
  simp [decodeWord]

/-- The word of an instruction decodes to it: the formats keep every operand (R62, R63). -/
theorem decodeWord_encode (i : Instr) : decodeWord (encode i) = some i := by
  cases i
  case cls | ret => decide
  case jp | call | seImm | sneImm | seReg | ldImm | addImm | sneReg | ldI | jpV0 | rnd | drw =>
    simp [encode, decodeWord]
  case ldReg | or | and | xor | addReg | sub | shr | subn | shl =>
    rw [encode, decodeWord_ofNibbles_eight]
    simp [decodeAlu]
  case skp | sknp =>
    rw [encode, decodeWord_ofNibblesByte_fourteen]
    simp [decodeKey]
  case ldVxDt | ldVxK | ldDtVx | ldStVx | addI | ldF | ldB | ldMemVx | ldVxMem =>
    rw [encode, decodeWord_ofNibblesByte_fifteen]
    simp [decodeMisc]

/-- In memory order the two bytes of an instruction decode to it, and the bytes after them are left. -/
theorem decode_encodeBytes_append (i : Instr) (rest : List Byte) :
    decode (encodeBytes i ++ rest) = .ok (i, rest) := by
  have hbytes : encodeBytes i ++ rest =
      (encode i).extractLsb' 8 8 :: (encode i).extractLsb' 0 8 :: rest := rfl
  rw [hbytes, decode, wordOfBytes_bytes, decodeWord_encode]

/-- Settles O1: an operand's field is read back from where its format puts it. -/
theorem decodeOfEncodeIsTheInstruction : Obligations.DecodeOfEncodeIsTheInstruction := fun i rest =>
  ⟨decodeWord_encode i, decode_encodeBytes_append i rest⟩

/-- Settles O6: each word stands for one pattern, and the decoder computes. -/
theorem sampleWordsDecodeAsTheTableSays : Obligations.SampleWordsDecodeAsTheTableSays := by
  unfold Obligations.SampleWordsDecodeAsTheTableSays
  decide

/-! ### Encoding what was decoded -/

section Fields
variable {w : Word} {a d : Nibble} {nn : Byte}

theorem ofNibbleAddr_eq_of_op1 (h : (op1 w).toNat = a.toNat) : ofNibbleAddr a (fieldNNN w) = w := by
  rw [← BitVec.eq_of_toNat_eq h, ofNibbleAddr_fields]

theorem ofNibblesByte_eq_of_op1 (h : (op1 w).toNat = a.toNat) :
    ofNibblesByte a (fieldX w) (fieldNN w) = w := by
  rw [← BitVec.eq_of_toNat_eq h, ofNibblesByte_fields]

theorem ofNibbles_eq_of_op1 (h : (op1 w).toNat = a.toNat) :
    ofNibbles a (fieldX w) (fieldY w) (fieldN w) = w := by
  rw [← BitVec.eq_of_toNat_eq h, ofNibbles_fields]

theorem ofNibblesByte_eq_of_lowByte (h : (op1 w).toNat = a.toNat) (h' : (fieldNN w).toNat = nn.toNat) :
    ofNibblesByte a (fieldX w) nn = w := by
  rw [← BitVec.eq_of_toNat_eq h', ofNibblesByte_eq_of_op1 h]

theorem ofNibbles_eq_of_op4 (h : (op1 w).toNat = a.toNat) (h' : (fieldN w).toNat = d.toNat) :
    ofNibbles a (fieldX w) (fieldY w) d = w := by
  rw [← BitVec.eq_of_toNat_eq h', ofNibbles_eq_of_op1 h]

theorem word_eq_of_fieldNNN {v : Word} (h : (op1 w).toNat = (op1 v).toNat)
    (h' : (fieldNNN w).toNat = (fieldNNN v).toNat) : v = w := by
  rw [← ofNibbleAddr_fields v, ← BitVec.eq_of_toNat_eq h', ofNibbleAddr_eq_of_op1 h]

end Fields

section Dispatch
variable {w : Word} {i : Instr}

theorem encode_of_decodeFixed (h0 : (op1 w).toNat = 0x0) (h : decodeFixed w = some i) : encode i = w := by
  unfold decodeFixed at h
  split at h
  case h_3 => cases h
  all_goals
    cases h
    exact word_eq_of_fieldNNN h0 ‹_›

theorem encode_of_decodeAlu (h8 : (op1 w).toNat = 0x8) (h : decodeAlu w = some i) : encode i = w := by
  unfold decodeAlu at h
  split at h
  case h_10 => cases h
  all_goals
    cases h
    exact ofNibbles_eq_of_op4 h8 ‹_›

theorem encode_of_decodeKey (hE : (op1 w).toNat = 0xE) (h : decodeKey w = some i) : encode i = w := by
  unfold decodeKey at h
  split at h
  case h_3 => cases h
  all_goals
    cases h
    exact ofNibblesByte_eq_of_lowByte hE ‹_›

theorem encode_of_decodeMisc (hF : (op1 w).toNat = 0xF) (h : decodeMisc w = some i) : encode i = w := by
  unfold decodeMisc at h
  split at h
  case h_10 => cases h
  all_goals
    cases h
    exact ofNibblesByte_eq_of_lowByte hF ‹_›

/-- A legal word is the encoding of what it decodes to: every bit is fixed by its row or kept in an operand. -/
theorem encode_of_decodeWord (h : decodeWord w = some i) : encode i = w := by
  unfold decodeWord at h
  split at h
  next h0 => exact encode_of_decodeFixed h0 h
  next h1 => cases h; exact ofNibbleAddr_eq_of_op1 h1
  next h2 => cases h; exact ofNibbleAddr_eq_of_op1 h2
  next h3 => cases h; exact ofNibblesByte_eq_of_op1 h3
  next h4 => cases h; exact ofNibblesByte_eq_of_op1 h4
  next h5 =>
    split at h
    · next hn => cases h; exact ofNibbles_eq_of_op4 h5 (congrArg _ hn)
    · cases h
  next h6 => cases h; exact ofNibblesByte_eq_of_op1 h6
  next h7 => cases h; exact ofNibblesByte_eq_of_op1 h7
  next h8 => exact encode_of_decodeAlu h8 h
  next h9 =>
    split at h
    · next hn => cases h; exact ofNibbles_eq_of_op4 h9 (congrArg _ hn)
    · cases h
  next hA => cases h; exact ofNibbleAddr_eq_of_op1 hA
  next hB => cases h; exact ofNibbleAddr_eq_of_op1 hB
  next hC => cases h; exact ofNibblesByte_eq_of_op1 hC
  next hD => cases h; exact ofNibbles_eq_of_op1 hD
  next hE => exact encode_of_decodeKey hE h
  next hF => exact encode_of_decodeMisc hF h
  next => cases h

end Dispatch

/-- Settles O2: dispatch looks at the fixed nibbles only, and the encoder writes those back. -/
theorem encodeOfDecodeIsTheWord : Obligations.EncodeOfDecodeIsTheWord := fun _ _ => encode_of_decodeWord

end Sys2Proof.Machine
end

section
/-! The opcode table (R64 to R66): which words are illegal, that no word selects two rows, and that the decoder
follows the row a word selects. -/

namespace Sys2Proof.Machine

/-! ### The illegal words (R66) -/

theorem decodeFixed_eq_none_iff {w : Word} (h0 : op1 w = 0x0) :
    decodeFixed w = none ↔ w ≠ 0x00E0 ∧ w ≠ 0x00EE := by
  have hE0 : (fieldNNN w).toNat = 0x0E0 ↔ w = 0x00E0 :=
    ⟨fun h => (word_eq_of_fieldNNN (v := 0x00E0) (congrArg _ h0) h).symm, fun h => h ▸ rfl⟩
  have hEE : (fieldNNN w).toNat = 0x0EE ↔ w = 0x00EE :=
    ⟨fun h => (word_eq_of_fieldNNN (v := 0x00EE) (congrArg _ h0) h).symm, fun h => h ▸ rfl⟩
  rw [Ne, Ne, ← hE0, ← hEE]
  unfold decodeFixed
  split <;> simp_all

theorem decodeAlu_eq_none_iff (w : Word) : decodeAlu w = none ↔
    fieldN w = 0xF ∨ (0x8 ≤ (fieldN w).toNat ∧ (fieldN w).toNat ≤ 0xD) := by
  have hF : fieldN w = 0xF ↔ (fieldN w).toNat = 0xF := BitVec.toNat_inj.symm
  have hlt := (fieldN w).isLt
  rw [hF]
  unfold decodeAlu
  split <;> grind

theorem decodeKey_eq_none_iff (w : Word) :
    decodeKey w = none ↔ fieldNN w ≠ 0x9E ∧ fieldNN w ≠ 0xA1 := by
  rw [Ne, Ne, ← BitVec.toNat_inj, ← BitVec.toNat_inj]
  unfold decodeKey
  split <;> simp_all

theorem decodeMisc_eq_none_iff (w : Word) : decodeMisc w = none ↔
    ∀ b ∈ [0x07, 0x0A, 0x15, 0x18, 0x1E, 0x29, 0x33, 0x55, 0x65], fieldNN w ≠ b := by
  simp only [List.forall_mem_cons, Ne, ← BitVec.toNat_inj]
  unfold decodeMisc
  split <;> simp_all

/-- Legality is decided by `op1` and, for six of its values, by the rest of the word. -/
theorem decodeWord_eq_none_iff (w : Word) : decodeWord w = none ↔
    ((op1 w = 0x0 ∧ w ≠ 0x00E0 ∧ w ≠ 0x00EE) ∨
     (op1 w = 0x5 ∧ fieldN w ≠ 0) ∨
     (op1 w = 0x8 ∧ (fieldN w = 0xF ∨ (0x8 ≤ (fieldN w).toNat ∧ (fieldN w).toNat ≤ 0xD))) ∨
     (op1 w = 0x9 ∧ fieldN w ≠ 0) ∨
     (op1 w = 0xE ∧ fieldNN w ≠ 0x9E ∧ fieldNN w ≠ 0xA1) ∨
     (op1 w = 0xF ∧ ∀ b ∈ [0x07, 0x0A, 0x15, 0x18, 0x1E, 0x29, 0x33, 0x55, 0x65], fieldNN w ≠ b)) := by
  have hop (a : Nibble) : op1 w = a ↔ (op1 w).toNat = a.toNat := BitVec.toNat_inj.symm
  have hlt := (op1 w).isLt
  simp only [hop]
  unfold decodeWord
  split
  case h_1 h => simp [h, decodeFixed_eq_none_iff (BitVec.eq_of_toNat_eq h)]
  case h_9 h => simp [h, decodeAlu_eq_none_iff]
  case h_15 h => simp [h, decodeKey_eq_none_iff]
  case h_16 h => simp [h, decodeMisc_eq_none_iff]
  case h_6 h | h_10 h => simp [h]
  case h_2 h | h_3 h | h_4 h | h_5 h | h_7 h | h_8 h | h_11 h | h_12 h | h_13 h | h_14 h => simp [h]
  case h_17 => grind

/-- Settles O5: each line of the table is what one branch of the dispatch rejects. -/
theorem illegalWordsAreThoseOfTheTable : Obligations.IllegalWordsAreThoseOfTheTable := decodeWord_eq_none_iff

/-! ### The rows of the opcode table (R64, R65) -/

theorem selects_iff {r : OpcodeRow} {w : Word} : r.selects w = true ↔ w &&& r.mask = r.value := beq_iff_eq

/-- Two rows that one word selects agree on the bits both masks look at. -/
theorem agree_of_selects {r r' : OpcodeRow} {w : Word} (h : r.selects w = true) (h' : r'.selects w = true) :
    r.value &&& r'.mask = r'.value &&& r.mask := by
  rw [← selects_iff.1 h, ← selects_iff.1 h', BitVec.and_assoc, BitVec.and_assoc, BitVec.and_comm r.mask]

/-- No two rows of the table agree on the bits both masks look at (R65). -/
theorem opcodeRows_eq_of_agree :
    ∀ r ∈ opcodeRows, ∀ r' ∈ opcodeRows, r.value &&& r'.mask = r'.value &&& r.mask → r = r' := by
  decide

/-- Settles O4: a word that selects two rows would make them agree where both look. -/
theorem noWordSelectsTwoRows : Obligations.NoWordSelectsTwoRows := fun _ r r' hr hr' h h' =>
  opcodeRows_eq_of_agree r hr r' hr' (agree_of_selects h h')

/-- Every row looks at `op1`, and at what else the dispatch on that `op1` looks at. -/
theorem opcodeRows_masks : ∀ r ∈ opcodeRows, op1 r.mask = 0xF ∧
    (op1 r.value = 0x0 → r.mask = 0xFFFF) ∧
    (op1 r.value = 0x5 ∨ op1 r.value = 0x8 ∨ op1 r.value = 0x9 → fieldN r.mask = 0xF) ∧
    (op1 r.value = 0xE ∨ op1 r.value = 0xF → fieldNN r.mask = 0xFF) := by
  decide

theorem opcodeRows_legal : ∀ r ∈ opcodeRows, decodeWord r.value ≠ none := by decide

section Rows
variable {r : OpcodeRow} {w : Word}

theorem op1_of_selects (h : r.selects w = true) (hm : op1 r.mask = 0xF) : op1 w = op1 r.value := by
  have hfield : op1 w &&& op1 r.mask = op1 r.value := by
    rw [← selects_iff.1 h, op1, op1, op1, BitVec.extractLsb'_and]
  rwa [hm, nibble_and_F] at hfield

theorem fieldN_of_selects (h : r.selects w = true) (hm : fieldN r.mask = 0xF) : fieldN w = fieldN r.value := by
  have hfield : fieldN w &&& fieldN r.mask = fieldN r.value := by
    rw [← selects_iff.1 h, fieldN, fieldN, fieldN, BitVec.extractLsb'_and]
  rwa [hm, nibble_and_F] at hfield

theorem fieldNN_of_selects (h : r.selects w = true) (hm : fieldNN r.mask = 0xFF) :
    fieldNN w = fieldNN r.value := by
  have hfield : fieldNN w &&& fieldNN r.mask = fieldNN r.value := by
    rw [← selects_iff.1 h, fieldNN, fieldNN, fieldNN, BitVec.extractLsb'_and]
  rwa [hm, show fieldNN w &&& 0xFF = fieldNN w from BitVec.and_allOnes] at hfield

/-- A word agrees with the row it selects wherever the dispatch looks, and the row's own value is legal. -/
theorem decodeWord_ne_none_of_selects (hr : r ∈ opcodeRows) (h : r.selects w = true) :
    decodeWord w ≠ none := by
  obtain ⟨hop1, hFixed, hLast, hLow⟩ := opcodeRows_masks r hr
  have hlegal := opcodeRows_legal r hr
  rw [Ne, decodeWord_eq_none_iff] at hlegal ⊢
  rw [op1_of_selects h hop1]
  refine fun hillegal => hlegal ?_
  rcases hillegal with ⟨h0, hw⟩ | ⟨h5, hn⟩ | ⟨h8, hn⟩ | ⟨h9, hn⟩ | ⟨hE, hnn⟩ | ⟨hF, hnn⟩
  · have hword : w = r.value := by
      rw [← selects_iff.1 h, hFixed h0, and_FFFF]
    exact .inl ⟨h0, hword ▸ hw⟩
  · exact .inr (.inl ⟨h5, fieldN_of_selects h (hLast (.inl h5)) ▸ hn⟩)
  · exact .inr (.inr (.inl ⟨h8, fieldN_of_selects h (hLast (.inr (.inl h8))) ▸ hn⟩))
  · exact .inr (.inr (.inr (.inl ⟨h9, fieldN_of_selects h (hLast (.inr (.inr h9))) ▸ hn⟩)))
  · exact .inr (.inr (.inr (.inr (.inl ⟨hE, fieldNN_of_selects h (hLow (.inl hE)) ▸ hnn⟩))))
  · exact .inr (.inr (.inr (.inr (.inr ⟨hF, fieldNN_of_selects h (hLow (.inr hF)) ▸ hnn⟩))))

end Rows

/-- Every instruction's word selects the row with its mnemonic (R64): `Laws.Encoding`, all constructors. -/
theorem encoding_statement (i : Instr) : Laws.Encoding.Statement i := by
  cases i with
  | cls => exact Laws.Encoding.cls
  | ret => exact Laws.Encoding.ret
  | jp nnn => exact Laws.Encoding.jp nnn
  | call nnn => exact Laws.Encoding.call nnn
  | seImm x nn => exact Laws.Encoding.seImm x nn
  | sneImm x nn => exact Laws.Encoding.sneImm x nn
  | seReg x y => exact Laws.Encoding.seReg x y
  | ldImm x nn => exact Laws.Encoding.ldImm x nn
  | addImm x nn => exact Laws.Encoding.addImm x nn
  | ldReg x y => exact Laws.Encoding.ldReg x y
  | or x y => exact Laws.Encoding.or x y
  | and x y => exact Laws.Encoding.and x y
  | xor x y => exact Laws.Encoding.xor x y
  | addReg x y => exact Laws.Encoding.addReg x y
  | sub x y => exact Laws.Encoding.sub x y
  | shr x y => exact Laws.Encoding.shr x y
  | subn x y => exact Laws.Encoding.subn x y
  | shl x y => exact Laws.Encoding.shl x y
  | sneReg x y => exact Laws.Encoding.sneReg x y
  | ldI nnn => exact Laws.Encoding.ldI nnn
  | jpV0 nnn => exact Laws.Encoding.jpV0 nnn
  | rnd x nn => exact Laws.Encoding.rnd x nn
  | drw x y n => exact Laws.Encoding.drw x y n
  | skp x => exact Laws.Encoding.skp x
  | sknp x => exact Laws.Encoding.sknp x
  | ldVxDt x => exact Laws.Encoding.ldVxDt x
  | ldVxK x => exact Laws.Encoding.ldVxK x
  | ldDtVx x => exact Laws.Encoding.ldDtVx x
  | ldStVx x => exact Laws.Encoding.ldStVx x
  | addI x => exact Laws.Encoding.addI x
  | ldF x => exact Laws.Encoding.ldF x
  | ldB x => exact Laws.Encoding.ldB x
  | ldMemVx x => exact Laws.Encoding.ldMemVx x
  | ldVxMem x => exact Laws.Encoding.ldVxMem x

/-- Settles O3: a legal word is its instruction's encoding, which selects that row; a word that selects a row
is legal. -/
theorem decoderFollowsTheOpcodeTable : Obligations.DecoderFollowsTheOpcodeTable := by
  refine fun w => ⟨fun i hi => ?_, fun hnone r hr => ?_⟩
  · obtain ⟨r, hr, hmnemonic, hselects⟩ := encoding_statement i
    exact ⟨r, hr, encode_of_decodeWord hi ▸ hselects, hmnemonic⟩
  · exact Bool.eq_false_iff.2 fun h => decodeWord_ne_none_of_selects hr h hnone

end Sys2Proof.Machine
end

section
/-! Assembled listings of instructions (R70): the encodings in order, each decoded at its own place. -/

namespace Sys2Proof.Machine

theorem addrInRange_eq_true (nnn : Addr12) : addrInRange nnn = true := decide_eq_true (by omega)

theorem regInRange_eq_true (x : RegIdx) : regInRange x = true := decide_eq_true (by omega)

theorem byteInRange_eq_true (nn : Byte) : byteInRange nn = true := decide_eq_true (by omega)

/-- Every term is well-formed by its type (R11, R62). -/
theorem wf_instr (i : Instr) : i.wf = true := by
  cases i <;> simp [Instr.wf, addrInRange_eq_true, regInRange_eq_true, byteInRange_eq_true]

theorem assemble_map_instr (is : List Instr) : assemble (is.map .instr) = some (is.flatMap encodeBytes) := by
  have hwf : (is.map AsmLine.instr).all AsmLine.wf = true := by
    simp [AsmLine.wf, wf_instr]
  rw [assemble, if_pos hwf, List.flatMap_map]
  rfl

theorem length_encodeBytes (i : Instr) : (encodeBytes i).length = 2 := rfl

theorem length_flatMap_encodeBytes (is : List Instr) : (is.flatMap encodeBytes).length = 2 * is.length := by
  induction is with
  | nil => rfl
  | cons i is ih => simp [ih, length_encodeBytes]; omega

/-- Instruction `k` of a listing is decoded at byte `2k` of its image. -/
theorem decode_drop_flatMap (is : List Instr) (k : Nat) (h : k < is.length) :
    ∃ rest, decode ((is.flatMap encodeBytes).drop (2 * k)) = .ok (is[k], rest) := by
  induction is generalizing k with
  | nil => exact absurd h (Nat.not_lt_zero k)
  | cons i is ih =>
    cases k with
    | zero => exact ⟨_, decode_encodeBytes_append i _⟩
    | succ k =>
      have hdrop : ((i :: is).flatMap encodeBytes).drop (2 * (k + 1)) = (is.flatMap encodeBytes).drop (2 * k) := rfl
      rw [hdrop]
      exact ih k (Nat.lt_of_succ_lt_succ h)

/-- Settles O60: the image is the encodings in order, each two bytes long. -/
theorem assembledListingDecodesBack : Obligations.AssembledListingDecodesBack := fun is =>
  ⟨_, assemble_map_instr is, length_flatMap_encodeBytes is, decode_drop_flatMap is⟩

end Sys2Proof.Machine
end

section
/-! Jumps, calls, returns and the skips that compare two registers (R100 to R107). -/

namespace Sys2Proof.Machine

variable {s t : State}

/-! ### Redirections as updates of the state -/

/-- A redirection adds `pc` to the parts an update changes. -/
theorem keptExcept_setPc_of {l : List Part} (h : keptExcept s t l) (w : Word) :
    keptExcept s (t.setPc w) (.pc :: l) :=
  keptExcept_trans (keptExcept_mono h fun _ => List.mem_cons_of_mem _)
    (keptExcept_mono (keptExcept_setPc t w) (by simp))

theorem push_stack_getElem (s : State) (a : Word) (h : s.stackHasRoom) (k : Fin 16) :
    (s.push a h).stack[k.val] = if k = s.sp then a else s.stack[k.val] := by
  rw [State.push_stack, Vector.getElem_set]
  simp only [Fin.ext_iff, eq_comm]

theorem spBelow_eq {k : Fin 16} (h : k.val + 1 = s.sp.val) : s.spBelow = k :=
  Fin.ext (show s.sp.val - 1 = k.val by omega)

theorem top_eq {k : Fin 16} (h : k.val + 1 = s.sp.val) : s.top = s.stack[k.val] := by
  simp only [State.top, spBelow_eq h]

/-! ### The handlers -/

theorem exec_jp (nnn : Addr12) (s : State) : exec (.jp nnn) s = .next (s.setPc (addrOperand nnn)) := rfl

theorem exec_call_of_stackHasRoom (nnn : Addr12) (h : s.stackHasRoom) :
    exec (.call nnn) s = .next ((s.push s.pc h).setPc (addrOperand nnn)) := dif_pos h

theorem exec_call_of_full (nnn : Addr12) (h : ¬ s.stackHasRoom) :
    exec (.call nnn) s = .next (raiseFatal .stackOverflow s.pc.toNat s) := dif_neg h

theorem exec_ret_of_empty (h : s.sp = 0) :
    exec .ret s = .next (raiseFatal .stackUnderflow s.pc.toNat s) := if_pos (congrArg _ h)

/-- A return with a live frame, whose slot is `k`. -/
theorem exec_ret_of_frame {k : Fin 16} (h : k.val + 1 = s.sp.val) :
    exec .ret s = .next (s.pop.setPc (s.stack[k.val] + 2)) := by
  rw [← top_eq h]
  exact if_neg (show s.sp.val ≠ 0 by omega)

theorem exec_jpV0_of_le {nnn : Addr12} (h : offsetTarget s nnn ≤ 0xFFF) :
    exec (.jpV0 nnn) s = .next (s.setPc (BitVec.ofNat 16 (offsetTarget s nnn))) := if_neg (Nat.not_lt.2 h)

theorem exec_jpV0_of_lt {nnn : Addr12} (h : 0xFFF < offsetTarget s nnn) :
    exec (.jpV0 nnn) s = .next (raiseFatal .pcOutOfRange (offsetTarget s nnn) s) := if_pos h

theorem exec_seReg (x y : RegIdx) (s : State) :
    exec (.seReg x y) s = .next (skipIf (s.reg x == s.reg y) s) := rfl

theorem exec_sneReg (x y : RegIdx) (s : State) :
    exec (.sneReg x y) s = .next (skipIf (s.reg x != s.reg y) s) := rfl

/-! ### The statements -/

/-- Settles O23: the handler writes the widened operand into `pc`. -/
theorem jumpGoesToItsAddress : Obligations.JumpGoesToItsAddress := fun nnn s =>
  ⟨decodeWord_encode (.jp nnn), _, exec_jp nnn s, addrOperand_toNat nnn, keptExcept_setPc s _⟩

/-- Settles O24: with room the handler is a push and a redirection; at 15 frames there is no room. -/
theorem callPushesTheCallSiteAddress : Obligations.CallPushesTheCallSiteAddress := by
  refine fun nnn s => ⟨decodeWord_encode (.call nnn), fun hroom => ?_, fun hfull => ?_⟩
  · exact ⟨_, exec_call_of_stackHasRoom nnn hroom, addrOperand_toNat nnn, rfl,
      push_stack_getElem s s.pc hroom, keptExcept_setPc_of (keptExcept_push s s.pc hroom) _⟩
  · have hnoRoom : ¬ s.stackHasRoom := by
      rw [State.stackHasRoom, hfull]
      decide
    exact ⟨_, exec_call_of_full nnn hnoRoom, raiseFatal_halts _ _ s⟩

/-- Settles O25: the handler goes on 2 after the top frame, and lowers the stack pointer alone. -/
theorem returnResumesAfterTheCall : Obligations.ReturnResumesAfterTheCall :=
  ⟨decodeWord_encode .ret,
    fun s _ h => ⟨_, exec_ret_of_frame h, rfl, spBelow_eq h, rfl,
      keptExcept_setPc_of (keptExcept_pop s) _⟩,
    fun s h => ⟨_, exec_ret_of_empty h, raiseFatal_halts _ _ s⟩⟩

/-- Settles O29: the return pops the slot the call pushed, so the frames below it are the caller's. -/
theorem returnUndoesTheCall : Obligations.ReturnUndoesTheCall := by
  refine fun nnn s hroom => ⟨_, exec_call_of_stackHasRoom nnn hroom, fun t' hsp hframes => ?_⟩
  have hpushed : s.sp.val + 1 = t'.sp.val := congrArg Fin.val hsp.symm
  have hslot (k : Fin 16) (hk : k.val < s.sp.val + 1) :
      t'.stack[k.val] = if k = s.sp then s.pc else s.stack[k.val] :=
    (hframes k hk).trans (push_stack_getElem s s.pc hroom k)
  refine ⟨_, exec_ret_of_frame hpushed, ?_, spBelow_eq hpushed, fun k hk => ?_⟩
  · have htop : t'.stack[s.sp.val] = s.pc := by rw [hslot s.sp (Nat.lt_succ_self _), if_pos rfl]
    exact congrArg (· + 2) htop
  · have hkept := hslot k (Nat.lt_succ_of_lt hk)
    rwa [if_neg (ne_of_lt hk)] at hkept

theorem toNat_ofNat_word {n : Nat} (h : n ≤ 0xFFFF) : (BitVec.ofNat 16 n).toNat = n :=
  (BitVec.toNat_ofNat _ _).trans (Nat.mod_eq_of_lt (by omega))

theorem toNat_ofNat_offsetTarget {nnn : Addr12} (h : offsetTarget s nnn ≤ 0xFFF) :
    (BitVec.ofNat 16 (offsetTarget s nnn)).toNat = offsetTarget s nnn :=
  toNat_ofNat_word (by omega)

/-- Settles O26: the widened sum is range-checked before it becomes `pc`. -/
theorem jumpWithOffsetAddsRegisterZero : Obligations.JumpWithOffsetAddsRegisterZero := fun nnn s =>
  ⟨decodeWord_encode (.jpV0 nnn),
    fun h => ⟨_, exec_jpV0_of_le h, toNat_ofNat_offsetTarget h, keptExcept_setPc s _⟩,
    fun h => ⟨_, exec_jpV0_of_lt h, raiseFatal_halts _ _ s⟩⟩

/-- Settles O28: each of the two is one skip on the comparison of the registers, as with an immediate. -/
theorem registerSkipsCompareTwoRegisters : Obligations.RegisterSkipsCompareTwoRegisters := fun x y s =>
  ⟨decodeWord_encode (.seReg x y), decodeWord_encode (.sneReg x y),
    ⟨_, exec_seReg x y s, skipIf_beq_pc _ _ s, keptExcept_skipIf _ s⟩,
    ⟨_, exec_sneReg x y s, skipIf_bne_pc _ _ s, keptExcept_skipIf _ s⟩⟩

end Sys2Proof.Machine
end

section
/-! The flag-defining instructions on registers (R126 to R132): each handler is two register writes, and which one
comes last decides what `V[0xF]` holds as a destination. -/

namespace Sys2Proof.Machine

/-! ### The flags and the results as numbers -/

theorem carryFlag_toNat (a b : Byte) : (carryFlag a b).toNat = if 255 < a.toNat + b.toNat then 1 else 0 := by
  simp only [carryFlag, flagOf_toNat, decide_eq_true_eq, gt_iff_lt]

theorem noBorrowFlag_toNat (a b : Byte) : (noBorrowFlag a b).toNat = if b.toNat ≤ a.toNat then 1 else 0 := by
  have hiff : (!decide ((a.toNat : Int) - b.toNat < 0)) = true ↔ b.toNat ≤ a.toNat := by
    simp
  simp only [noBorrowFlag, flagOf_toNat, hiff]

theorem reverseFlag_toNat (a b : Byte) : (reverseFlag a b).toNat = if a.toNat < b.toNat then 1 else 0 := by
  simp only [reverseFlag, flagOf_toNat, decide_eq_true_eq, gt_iff_lt]

theorem shiftRightFlag_toNat (a : Byte) : (shiftRightFlag a).toNat = a.toNat % 2 := by
  simp [shiftRightFlag]

theorem shiftLeftFlag_toNat (a : Byte) : (shiftLeftFlag a).toNat = if 128 ≤ a.toNat then 0x80 else 0 := by
  revert a
  decide

/-- The bit shifted out is 0 or 1, so halving it leaves 0. -/
theorem shiftRightFlag_shift (a : Byte) : shiftRightFlag a >>> 1 = 0 := by
  revert a
  decide

/-- The top bit in place is `0x80` or 0, so doubling it leaves 0. -/
theorem shiftLeftFlag_shift (a : Byte) : shiftLeftFlag a <<< 1 = 0 := by
  revert a
  decide

/-- The wrapped difference, as an integer modulo 256. -/
theorem sub_toNat_int (a b : Byte) : ((a - b).toNat : Int) = ((a.toNat : Int) - b.toNat) % 256 := by
  have ha := a.isLt
  have hb := b.isLt
  rw [BitVec.toNat_sub]
  omega

theorem ushiftRight_one_toNat (a : Byte) : (a >>> 1).toNat = a.toNat / 2 := by
  simp [Nat.shiftRight_eq_div_pow]

theorem shiftLeft_one_toNat (a : Byte) : (a <<< 1).toNat = 2 * a.toNat % 256 := by
  simp [Nat.shiftLeft_eq, Nat.mul_comm]

/-! ### The handlers -/

theorem exec_addReg (x y : RegIdx) (s : State) : exec (.addReg x y) s =
    finish ((s.setReg flagReg (carryFlag (s.reg x) (s.reg y))).setReg x (s.reg x + s.reg y)) := rfl

theorem exec_sub (x y : RegIdx) (s : State) : exec (.sub x y) s =
    finish ((s.setReg flagReg (noBorrowFlag (s.reg x) (s.reg y))).setReg x (s.reg x - s.reg y)) := rfl

theorem exec_subn (x y : RegIdx) (s : State) : exec (.subn x y) s =
    finish ((s.setReg x (s.reg y - s.reg x)).setReg flagReg (reverseFlag (s.reg x) (s.reg y))) := rfl

/-- `8xy6` shifts the register as it stands after the flag is written. -/
theorem exec_shr (x y : RegIdx) (s : State) : exec (.shr x y) s =
    finish ((s.setReg flagReg (shiftRightFlag (s.reg x))).setReg x
      ((s.setReg flagReg (shiftRightFlag (s.reg x))).reg x >>> 1)) := rfl

/-- `8xyE` shifts the register as it stands after the flag is written. -/
theorem exec_shl (x y : RegIdx) (s : State) : exec (.shl x y) s =
    finish ((s.setReg flagReg (shiftLeftFlag (s.reg x))).setReg x
      ((s.setReg flagReg (shiftLeftFlag (s.reg x))).reg x <<< 1)) := rfl

theorem regsKept_mono {s t : State} {l l' : List RegIdx} (h : regsKept s t l) (hl : ∀ r ∈ l, r ∈ l') :
    regsKept s t l' := fun r hr => h r fun e => hr (hl r e)

/-- Two writes with the flag first: the result survives for `x = 0xF` (R15). -/
theorem flagThenWrite_spec (x : RegIdx) (flag result : Byte) (s : State) :
    ∃ t, finish ((s.setReg flagReg flag).setReg x result) = .next t ∧ t.reg x = result ∧
      (x ≠ 0xF → t.reg 0xF = flag) ∧ t.pc = s.pc + 2 ∧ regsKept s t [x, 0xF] ∧
      keptExcept s t [.regs, .pc] := by
  obtain ⟨t, ht, hx, hflag, hpc, hregs, hkept⟩ := twoWrites_spec flagReg x flag result s
  exact ⟨t, ht, hx, fun hne => hflag (Ne.symm hne), hpc, regsKept_mono hregs (by simp), hkept⟩

/-! ### The statements -/

/-- Settles O33: the flag is written first and the wrapped sum over it. -/
theorem addRegistersReportsTheCarry : Obligations.AddRegistersReportsTheCarry := by
  intro x y s
  obtain ⟨t, ht, hx, hflag, hpc, hregs, hkept⟩ :=
    flagThenWrite_spec x (carryFlag (s.reg x) (s.reg y)) (s.reg x + s.reg y) s
  refine ⟨decodeWord_encode (.addReg x y), t, (exec_addReg x y s).trans ht, ?_, fun hne => ?_, hpc, hregs, hkept⟩
  · rw [hx, BitVec.toNat_add]
  · rw [hflag hne, carryFlag_toNat]

/-- Settles O34: the flag is written first and the wrapped difference over it. -/
theorem subtractReportsNoBorrow : Obligations.SubtractReportsNoBorrow := by
  intro x y s
  obtain ⟨t, ht, hx, hflag, hpc, hregs, hkept⟩ :=
    flagThenWrite_spec x (noBorrowFlag (s.reg x) (s.reg y)) (s.reg x - s.reg y) s
  refine ⟨decodeWord_encode (.sub x y), t, (exec_sub x y s).trans ht, ?_, fun hne => ?_, hpc, hregs, hkept⟩
  · rw [hx, sub_toNat_int]
  · rw [hflag hne, noBorrowFlag_toNat]

/-- Settles O35: the difference is written first and the strict flag over it. -/
theorem reverseSubtractReportsStrictlyGreater : Obligations.ReverseSubtractReportsStrictlyGreater := by
  intro x y s
  obtain ⟨t, ht, hflag, hx, hpc, hregs, hkept⟩ :=
    twoWrites_spec x flagReg (s.reg y - s.reg x) (reverseFlag (s.reg x) (s.reg y)) s
  refine ⟨decodeWord_encode (.subn x y), t, (exec_subn x y s).trans ht, fun hne => ?_, ?_, hpc, hregs, hkept⟩
  · rw [hx hne, sub_toNat_int]
  · rw [hflag, reverseFlag_toNat]

/-- Settles O36: for `x = 0xF` the flag itself is halved, which leaves 0. -/
theorem shiftRightReportsTheLowBit : Obligations.ShiftRightReportsTheLowBit := by
  intro x y s
  obtain ⟨t, ht, hx, hflag, hpc, hregs, hkept⟩ := flagThenWrite_spec x (shiftRightFlag (s.reg x))
    ((s.setReg flagReg (shiftRightFlag (s.reg x))).reg x >>> 1) s
  refine ⟨decodeWord_encode (.shr x y), t, (exec_shr x y s).trans ht, fun hne => ⟨?_, ?_⟩, fun he => ?_,
    hpc, hregs, hkept⟩
  · rw [hx, State.setReg_reg_of_ne _ _ hne, ushiftRight_one_toNat]
  · rw [hflag hne, shiftRightFlag_toNat]
  · subst he
    rw [hx, State.setReg_reg_self, shiftRightFlag_shift]

/-- Settles O37: for `x = 0xF` the flag itself is doubled, which leaves 0. -/
theorem shiftLeftReportsTheTopBitInPlace : Obligations.ShiftLeftReportsTheTopBitInPlace := by
  intro x y s
  obtain ⟨t, ht, hx, hflag, hpc, hregs, hkept⟩ := flagThenWrite_spec x (shiftLeftFlag (s.reg x))
    ((s.setReg flagReg (shiftLeftFlag (s.reg x))).reg x <<< 1) s
  refine ⟨decodeWord_encode (.shl x y), t, (exec_shl x y s).trans ht, fun hne => ⟨?_, ?_⟩, fun he => ?_,
    hpc, hregs, hkept⟩
  · rw [hx, State.setReg_reg_of_ne _ _ hne, shiftLeft_one_toNat]
  · rw [hflag hne, shiftLeftFlag_toNat]
  · subst he
    rw [hx, State.setReg_reg_self, shiftLeftFlag_shift]

/-- Settles O38: the five statements above at `x = 0xF`. -/
theorem flagRegisterAsDestination : Obligations.FlagRegisterAsDestination := by
  intro y s
  refine ⟨?_, ?_, ?_, ?_, ?_⟩
  · obtain ⟨-, t, ht, hsum, -⟩ := addRegistersReportsTheCarry 0xF y s
    exact ⟨t, ht, hsum⟩
  · obtain ⟨-, t, ht, hdiff, -⟩ := subtractReportsNoBorrow 0xF y s
    have hy := (s.reg y).isLt
    exact ⟨t, ht, by omega⟩
  · obtain ⟨-, t, ht, -, hzero, -⟩ := shiftRightReportsTheLowBit 0xF y s
    exact ⟨t, ht, congrArg _ (hzero rfl)⟩
  · obtain ⟨-, t, ht, -, hflag, -⟩ := reverseSubtractReportsStrictlyGreater 0xF y s
    exact ⟨t, ht, hflag⟩
  · obtain ⟨-, t, ht, -, hzero, -⟩ := shiftLeftReportsTheTopBitInPlace 0xF y s
    exact ⟨t, ht, congrArg _ (hzero rfl)⟩

end Sys2Proof.Machine
end

section
/-! The index register and memory (R141 to R146): one bounds check before every transfer, and what a transfer that
fits moves. -/

namespace Sys2Proof.Machine

variable {s : State}

/-! ### The handlers -/

theorem exec_addI_of_le {x : RegIdx} (h : indexSum s x ≤ 0xFFFF) : exec (.addI x) s = .next
    (advance ((s.setReg flagReg (indexFlag (indexSum s x))).setIndex (BitVec.ofNat 16 (indexSum s x)))) :=
  if_neg (Nat.not_lt.2 h)

theorem exec_addI_of_lt {x : RegIdx} (h : 0xFFFF < indexSum s x) :
    exec (.addI x) s = .next (raiseFatal .indexOverflow (indexSum s x) s) := if_pos h

theorem exec_ldF (x : RegIdx) (s : State) : exec (.ldF x) s =
    .next (advance (s.setIndex (BitVec.ofNat 16 (glyphAddr (s.reg x))))) := rfl

theorem exec_ldB (x : RegIdx) (s : State) : exec (.ldB x) s =
    withIndexed 2 s (s.setMem (storeDigits s.mem (indexedAddr s 0) (s.reg x))) := rfl

theorem exec_ldMemVx (x : RegIdx) (s : State) : exec (.ldMemVx x) s =
    withIndexed x.toNat s (s.setMem (dumpRegs s (indexedAddr s 0) (x.toNat + 1))) := rfl

theorem exec_ldVxMem (x : RegIdx) (s : State) : exec (.ldVxMem x) s =
    withIndexed x.toNat s (loadRegs s (indexedAddr s 0) (x.toNat + 1)) := rfl

theorem exec_drw_of_lt {x y : RegIdx} {n : Nibble} (hn : n ≠ 0) (h : 0xFFF < indexedAddr s (n.toNat - 1)) :
    exec (.drw x y n) s = .next (raiseFatal .memoryOutOfRange (indexedAddr s (n.toNat - 1)) s) :=
  if_pos ⟨Nat.pos_of_ne_zero fun e => hn (BitVec.eq_of_toNat_eq e), h⟩

theorem withIndexed_of_le {k : Nat} (h : indexedAddr s k ≤ 0xFFF) (t : State) :
    withIndexed k s t = .next (advance t) :=
  (withIndexed_spec k s t).1 h

theorem withIndexed_of_lt {k : Nat} (h : 0xFFF < indexedAddr s k) (t : State) :
    withIndexed k s t = .next (raiseFatal .memoryOutOfRange (indexedAddr s k) s) :=
  (withIndexed_spec k s t).2 h

@[simp] theorem advance_mem (s : State) : (advance s).mem = s.mem := rfl

/-! ### Sums and digits as numbers -/

theorem indexFlag_toNat (n : Nat) : (indexFlag n).toNat = if 0xFFF < n then 1 else 0 := by
  simp only [indexFlag, flagOf_toNat, decide_eq_true_eq, gt_iff_lt]

/-- The last glyph address is `0x1B0 + 5 * 255` (D18). -/
theorem glyphAddr_le (b : Byte) : glyphAddr b ≤ 0x6AB := by
  have hloc := Config.fontsetLocation.isLt
  have hb := b.isLt
  unfold glyphAddr
  omega

theorem digitHundreds_toNat (b : Byte) : (digitHundreds b).toNat = b.toNat / 100 := by
  rw [digitHundreds, BitVec.toNat_ofNat]
  omega

theorem digitTens_toNat (b : Byte) : (digitTens b).toNat = b.toNat / 10 % 10 := by
  rw [digitTens, BitVec.toNat_ofNat]
  omega

theorem digitUnits_toNat (b : Byte) : (digitUnits b).toNat = b.toNat % 10 := by
  rw [digitUnits, BitVec.toNat_ofNat]
  omega

theorem indexedAddr_eq (s : State) (k : Nat) : indexedAddr s k = indexedAddr s 0 + k := rfl

/-! ### Fatal accesses -/

/-- Settles O16: every memory form is checked by its highest address before its effect. -/
theorem accessBeyondMemoryIsFatal : Obligations.AccessBeyondMemoryIsFatal := by
  refine ⟨fun x s h => ?_, fun x s h => ⟨?_, ?_⟩, fun x y n s hn h => ?_⟩
  · exact ⟨_, (exec_ldB x s).trans (withIndexed_of_lt h _), raiseFatal_halts _ _ s⟩
  · exact ⟨_, (exec_ldMemVx x s).trans (withIndexed_of_lt h _), raiseFatal_halts _ _ s⟩
  · exact ⟨_, (exec_ldVxMem x s).trans (withIndexed_of_lt h _), raiseFatal_halts _ _ s⟩
  · exact ⟨_, exec_drw_of_lt hn h, raiseFatal_halts _ _ s⟩

/-! ### The index register -/

/-- Settles O40: the widened sum is range-checked, then the flag and the sum are written. -/
theorem addToIndexFlagsTheAddressRange : Obligations.AddToIndexFlagsTheAddressRange := by
  refine fun x s => ⟨decodeWord_encode (.addI x), fun h => ?_, fun h => ?_⟩
  · refine ⟨_, exec_addI_of_le h, toNat_ofNat_word h, ?_, rfl, ?_, ?_⟩
    · rw [advance_reg, State.setIndex_reg, State.setReg_reg_self, indexFlag_toNat, indexSum]
    · exact regsKept_setReg s flagReg _ (by simp)
    · exact keptExcept_trans (keptExcept_mono (keptExcept_setReg s _ _) (by simp))
        (keptExcept_mono (keptExcept_advance_setIndex _ _) (by simp))
  · exact ⟨_, exec_addI_of_lt h, raiseFatal_halts _ _ s⟩

/-- Settles O41: the glyph's address fits a word, since the font ends below `0x200`. -/
theorem loadFontAddressMultipliesByFive : Obligations.LoadFontAddressMultipliesByFive := by
  intro x s
  have hle := glyphAddr_le (s.reg x)
  have hi : (BitVec.ofNat 16 (glyphAddr (s.reg x))).toNat = glyphAddr (s.reg x) := toNat_ofNat_word (by omega)
  exact ⟨decodeWord_encode (.ldF x), _, exec_ldF x s, hi, hi.trans_le hle, rfl,
    keptExcept_advance_setIndex s _⟩

/-! ### Transfers -/

theorem keptExcept_advance_setMem (s : State) (m : Memory) :
    keptExcept s (advance (s.setMem m)) [.memory, .pc] :=
  keptExcept_advance_of (keptExcept_setMem s m)

/-- Settles O42: the three digits are stored at three different addresses, in range by the check. -/
theorem decimalStoreWritesThreeDigits : Obligations.DecimalStoreWritesThreeDigits := by
  refine fun x s => ⟨decodeWord_encode (.ldB x), fun h => ?_⟩
  have hfits : indexedAddr s 0 + 2 < Config.memSize := Nat.lt_succ_of_le h
  have hread := read_storeDigits s.mem (indexedAddr s 0) (s.reg x) hfits
  refine ⟨_, (exec_ldB x s).trans (withIndexed_of_le h _), ?_, ?_, ?_, fun a ha => ?_, rfl,
    keptExcept_advance_setMem s _⟩
  · rw [advance_mem, State.setMem_mem, hread, if_pos rfl, digitHundreds_toNat]
  · rw [advance_mem, State.setMem_mem, hread, indexedAddr_eq s 1, if_neg (by omega), if_pos rfl, digitTens_toNat]
  · rw [advance_mem, State.setMem_mem, hread, indexedAddr_eq s 2, if_neg (by omega), if_neg (by omega),
      if_pos rfl, digitUnits_toNat]
  · exact read_storeDigits_outside _ _ _ a (ha.imp_right fun h => Nat.succ_le_of_lt h)

/-- A dump that fits puts `V[r]` at `I + r` (R144). -/
theorem read_dumpRegs_indexed {x : RegIdx} (h : indexedAddr s x.toNat ≤ 0xFFF) {r : RegIdx}
    (hr : r.toNat ≤ x.toNat) :
    (dumpRegs s (indexedAddr s 0) (x.toNat + 1)).read (indexedAddr s r.toNat) = s.reg r := by
  have hfits : indexedAddr s 0 + (x.toNat + 1) ≤ Config.memSize := Nat.succ_le_succ h
  rw [read_dumpRegs s _ _ hfits, indexedAddr_eq s r.toNat, if_pos (by omega), Nat.add_sub_cancel_left,
    BitVec.ofNat_toNat, BitVec.setWidth_eq]

/-- Settles O43: the check makes the dump fit, and a dump reads back register by register. -/
theorem registerDumpStoresUpToX : Obligations.RegisterDumpStoresUpToX := by
  refine fun x s => ⟨decodeWord_encode (.ldMemVx x), fun h => ?_⟩
  exact ⟨_, (exec_ldMemVx x s).trans (withIndexed_of_le h _), fun r hr => read_dumpRegs_indexed h hr,
    fun a ha => read_dumpRegs_outside s _ _ a (ha.imp_right Nat.succ_le_of_lt), rfl,
    keptExcept_advance_setMem s _⟩

/-- A load that fits: `V[r]` from `I + r` for `r` up to `x`, nothing else but `pc` (R145). -/
theorem exec_ldVxMem_reg {x : RegIdx} (h : indexedAddr s x.toNat ≤ 0xFFF) :
    ∃ t, exec (.ldVxMem x) s = .next t ∧ (∀ r : RegIdx, t.reg r =
        if r.toNat ≤ x.toNat then s.mem.read (indexedAddr s r.toNat) else s.reg r) ∧
      t.pc = s.pc + 2 ∧ keptExcept s t [.regs, .pc] := by
  refine ⟨_, (exec_ldVxMem x s).trans (withIndexed_of_le h _), fun r => ?_, ?_,
    keptExcept_advance_of (keptExcept_loadRegs s _ _)⟩
  · rw [advance_reg, loadRegs_reg s _ _ (by omega)]
    simp only [Nat.lt_succ_iff]
    rfl
  · exact congrArg (· + 2) (keptExcept_loadRegs s _ _ .pc (by simp))

/-- Settles O44: the check makes the load fit, and it fills the registers up to `x` byte by byte. -/
theorem registerLoadReadsUpToX : Obligations.RegisterLoadReadsUpToX := fun x _ =>
  ⟨decodeWord_encode (.ldVxMem x), exec_ldVxMem_reg⟩

/-- Settles O45: the load reads at `I + r` what the dump stored there. -/
theorem loadAfterDumpRestoresTheRegisters : Obligations.LoadAfterDumpRestoresTheRegisters := by
  refine fun x s h => ⟨_, (exec_ldMemVx x s).trans (withIndexed_of_le h _), fun t' hmem hi => ?_⟩
  have haddr (k : Nat) : indexedAddr t' k = indexedAddr s k := by
    rw [indexedAddr, hi, indexedAddr]
  obtain ⟨u, hu, hregs, -⟩ := exec_ldVxMem_reg (s := t') (haddr x.toNat ▸ h)
  refine ⟨u, hu, fun r hr => ?_⟩
  rw [hregs, if_pos hr, haddr, hmem]
  exact read_dumpRegs_indexed h hr

/-- Settles O46: the next fetch reads the two bytes at `pc + 2 = I`, which are `V[0]` and `V[1]`. -/
theorem storedBytesAreFetchedNext : Obligations.StoredBytesAreFetchedNext := by
  intro x s hx hpc hi h
  refine ⟨_, (exec_ldMemVx x s).trans (withIndexed_of_le h _), ?_⟩
  have hnext : (s.pc + 2).toNat = indexedAddr s 0 := by
    rw [BitVec.toNat_add, show (2 : Word).toNat = 2 from rfl, indexedAddr, hi]
    omega
  have h0 := read_dumpRegs_indexed (r := 0) h (Nat.zero_le _)
  have h1 := read_dumpRegs_indexed (r := 1) h hx
  have hbound : ¬ 0xFFE < (s.pc + 2).toNat := by
    rw [hnext, indexedAddr, hi]
    omega
  refine ⟨wordOfBytes (s.reg 0) (s.reg 1), ?_, wordOfBytes_toNat _ _⟩
  rw [fetchWord, advance_pc, State.setMem_pc, if_neg hbound, hnext, advance_mem, State.setMem_mem, ← h0, ← h1]
  rfl

end Sys2Proof.Machine
end

section
/-! The display sink (R170 to R175): a clear unsets every pixel, and a sprite inverts each pixel it covers once,
since its 8 columns and at most 15 rows fall on different places of the 64 by 32 buffer. -/

namespace Sys2Proof.Machine

/-! ### Drawings as sets of inverted pixels -/

/-- The drawing from `d` to `e` inverts the pixels of `P` and no other, and reports whether one of them was set
(R172, R173). -/
structure Drawn.Inverts (d e : Drawn) (P : Fin 32 → Fin 64 → Prop) : Prop where
  inverted : ∀ r c, P r c → e.screen.pixel r c = !d.screen.pixel r c
  unchanged : ∀ r c, ¬ P r c → e.screen.pixel r c = d.screen.pixel r c
  collided : e.collision = true ↔ d.collision = true ∨ ∃ r c, P r c ∧ d.screen.pixel r c = true

section Inverts
variable {d e f : Drawn} {P Q R : Fin 32 → Fin 64 → Prop}

theorem Drawn.Inverts.congr (h : d.Inverts e P) (hP : ∀ r c, P r c ↔ Q r c) : d.Inverts e Q := by
  obtain rfl : P = Q := funext₂ fun r c => propext (hP r c)
  exact h

theorem Drawn.inverts_none (d : Drawn) (hP : ∀ r c, ¬ P r c) : d.Inverts d P :=
  ⟨fun r c h => absurd h (hP r c), fun _ _ _ => rfl, by simp [hP]⟩

/-- Drawings of disjoint sets of pixels one after the other draw the union. -/
theorem Drawn.Inverts.trans (h : d.Inverts e P) (h' : e.Inverts f Q) (hdisj : ∀ r c, P r c → ¬ Q r c)
    (hR : ∀ r c, R r c ↔ P r c ∨ Q r c) : d.Inverts f R := by
  refine ⟨fun r c hRrc => ?_, fun r c hRrc => ?_, ?_⟩
  · rcases (hR r c).1 hRrc with hP | hQ
    · rw [h'.unchanged r c (hdisj r c hP), h.inverted r c hP]
    · rw [h'.inverted r c hQ, h.unchanged r c fun hP => hdisj r c hP hQ]
  · have hnot := not_or.1 fun hPQ => hRrc ((hR r c).2 hPQ)
    rw [h'.unchanged r c hnot.2, h.unchanged r c hnot.1]
  · have hsame (r c) (hQ : Q r c) : e.screen.pixel r c = d.screen.pixel r c :=
      h.unchanged r c fun hP => hdisj r c hP hQ
    rw [h'.collided, h.collided]
    constructor
    · rintro ((hd | ⟨r, c, hP, hset⟩) | ⟨r, c, hQ, hset⟩)
      · exact .inl hd
      · exact .inr ⟨r, c, (hR r c).2 (.inl hP), hset⟩
      · exact .inr ⟨r, c, (hR r c).2 (.inr hQ), hsame r c hQ ▸ hset⟩
    · rintro (hd | ⟨r, c, hRrc, hset⟩)
      · exact .inl (.inl hd)
      · rcases (hR r c).1 hRrc with hP | hQ
        · exact .inl (.inr ⟨r, c, hP, hset⟩)
        · exact .inr ⟨r, c, hQ, (hsame r c hQ).trans hset⟩

end Inverts

/-! ### One pixel, one row, one sprite -/

/-- The pixels a row byte sets among its first `n`, drawn at column `xb` of row `yRow` (R173). -/
def rowCovers (xb yRow : Nat) (byte : Byte) (n : Nat) (r : Fin 32) (c : Fin 64) : Prop :=
  ∃ k, k < n ∧ yRow % 32 = r.val ∧ (xb + k) % 64 = c.val ∧ byte.getLsbD (7 - k) = true

theorem Drawn.inverts_pixelOf (d : Drawn) (xb yRow : Nat) (byte : Byte) (k : Nat) :
    d.Inverts (d.pixelOf xb yRow byte k) fun r c =>
      yRow % 32 = r.val ∧ (xb + k) % 64 = c.val ∧ byte.getLsbD (7 - k) = true := by
  unfold Drawn.pixelOf
  split
  · next hbit =>
    have hplace (r : Fin 32) (c : Fin 64) : (yRow % 32 = r.val ∧ (xb + k) % 64 = c.val ∧
        byte.getLsbD (7 - k) = true) ↔ r = wrapRow yRow ∧ c = wrapCol (xb + k) := by
      simp only [hbit, and_true, wrapRow, wrapCol, Fin.ext_iff, eq_comm]
    refine Drawn.Inverts.congr (P := fun r c => r = wrapRow yRow ∧ c = wrapCol (xb + k)) ?_
      fun r c => (hplace r c).symm
    refine ⟨fun r c h => ?_, fun r c h => ?_, ?_⟩
    · simp [flip_pixel, h]
    · have hoff : (decide (r = wrapRow yRow) && decide (c = wrapCol (xb + k))) = false := by
        simpa using h
      rw [flip_pixel, hoff, Bool.xor_false]
    · simp
  · next hbit => exact d.inverts_none fun r c h => hbit h.2.2

/-- The first `n` pixels of a row fall on different columns, so each covered one is inverted once. -/
theorem Drawn.inverts_pixelsOf (d : Drawn) (xb yRow : Nat) (byte : Byte) (n : Nat) (hn : n ≤ 64) :
    d.Inverts (d.pixelsOf xb yRow byte n) (rowCovers xb yRow byte n) := by
  induction n with
  | zero => exact d.inverts_none fun r c ⟨k, hk, _⟩ => absurd hk (Nat.not_lt_zero k)
  | succ n ih =>
    refine (ih (by omega)).trans (Drawn.inverts_pixelOf _ xb yRow byte n) ?_ fun r c => ?_
    · rintro r c ⟨k, hk, -, hcol, -⟩ ⟨-, hcol', -⟩
      omega
    · simp only [rowCovers, Nat.lt_succ_iff_lt_or_eq, or_and_right, exists_or, exists_eq_left]

/-- The rows of a sprite fall on different rows of the buffer, so each covered pixel is inverted once (R175). -/
theorem Drawn.inverts_rows (d : Drawn) (m : Memory) (a xb yb n : Nat) (hn : n ≤ 32) :
    d.Inverts (d.rows m a xb yb n) (spriteCovers m a xb yb n) := by
  induction n with
  | zero => exact d.inverts_none fun r c ⟨j, _, hj, _⟩ => absurd hj (Nat.not_lt_zero j)
  | succ n ih =>
    refine (ih (by omega)).trans (Drawn.inverts_pixelsOf _ xb (yb + n) (m.read (a + n)) 8 (by decide)) ?_
      fun r c => ⟨?_, ?_⟩
    · rintro r c ⟨j, k, hj, -, hrow, -⟩ ⟨k', -, hrow', -⟩
      omega
    · rintro ⟨j, k, hj, hk, hrow, hcol, hbit⟩
      rcases Nat.lt_succ_iff_lt_or_eq.1 hj with hlt | rfl
      · exact .inl ⟨j, k, hlt, hk, hrow, hcol, hbit⟩
      · exact .inr ⟨k, hk, hrow, hcol, hbit⟩
    · rintro (⟨j, k, hj, hk, hrow, hcol, hbit⟩ | ⟨k, hk, hrow, hcol, hbit⟩)
      · exact ⟨j, k, Nat.lt_succ_of_lt hj, hk, hrow, hcol, hbit⟩
      · exact ⟨n, k, Nat.lt_succ_self n, hk, hrow, hcol, hbit⟩

theorem inverts_spriteDrawn (x y : RegIdx) (n : Nibble) (s : State) :
    Drawn.Inverts ⟨s.screen, false⟩ (spriteDrawn x y n s)
      (spriteCovers s.mem (indexedAddr s 0) (s.reg x).toNat (s.reg y).toNat n.toNat) :=
  Drawn.inverts_rows _ s.mem _ _ _ n.toNat (by omega)

/-! ### The handlers -/

theorem exec_cls (s : State) : exec .cls s = .next (advance (s.setScreen Screen.cleared)) := rfl

theorem exec_drw_of_fits {x y : RegIdx} {n : Nibble} {s : State}
    (h : n = 0 ∨ indexedAddr s (n.toNat - 1) ≤ 0xFFF) : exec (.drw x y n) s =
      .next (advance ((s.setScreen (spriteDrawn x y n s).screen).setReg flagReg
        (collisionFlag (spriteDrawn x y n s).collision))) := by
  refine if_neg fun hout => ?_
  rcases h with rfl | hle
  · exact absurd hout.1 (by decide)
  · exact absurd hout.2 (Nat.not_lt.2 hle)

theorem collisionFlag_eq_one_iff (c : Bool) : collisionFlag c = 1 ↔ c = true := by
  cases c <;> decide

theorem collisionFlag_eq_zero_or_one (c : Bool) : collisionFlag c = 0 ∨ collisionFlag c = 1 := by
  cases c <;> decide

/-! ### The statements -/

/-- Settles O49: the handler replaces the buffer by the cleared one. -/
theorem clearUnsetsEveryPixel : Obligations.ClearUnsetsEveryPixel :=
  ⟨decodeWord_encode .cls, fun s => ⟨_, exec_cls s, cleared_pixel, rfl,
    keptExcept_advance_of (keptExcept_setScreen s _)⟩⟩

/-- Settles O50: the rows drawn from memory invert what the sprite covers (`inverts_spriteDrawn`), and the flag is
their collision. -/
theorem drawInvertsTheSpritesPixels : Obligations.DrawInvertsTheSpritesPixels := by
  refine fun x y n s => ⟨decodeWord_encode (.drw x y n), fun h => ?_⟩
  obtain ⟨hinverted, hunchanged, hcollided⟩ := inverts_spriteDrawn x y n s
  refine ⟨_, exec_drw_of_fits h, hinverted, hunchanged, ?_, ?_, rfl, ?_, ?_⟩
  · rw [advance_reg, State.setReg_reg_self]
    exact collisionFlag_eq_zero_or_one _
  · rw [advance_reg, State.setReg_reg_self, collisionFlag_eq_one_iff, hcollided]
    simp [and_comm]
  · exact regsKept_setReg _ flagReg _ (by simp)
  · exact keptExcept_trans (keptExcept_mono (keptExcept_setScreen s _) (by simp))
      (keptExcept_mono (keptExcept_advance_of (keptExcept_setReg _ _ _)) (by simp))

end Sys2Proof.Machine
end

section
/-! The input source (R177 to R182): the key skips, and the wait of `Fx0A` by what its listed polls come to. -/

namespace Sys2Proof.Machine

variable {s : State}

/-! ### The key skips -/

theorem exec_skp (x : RegIdx) (s : State) : exec (.skp x) s = keySkip x true s := rfl

theorem exec_sknp (x : RegIdx) (s : State) : exec (.sknp x) s = keySkip x false s := rfl

theorem keySkip_of_le {x : RegIdx} (whenDown : Bool) (h : (s.reg x).toNat ≤ 15) :
    keySkip x whenDown s = .next (skipIf (s.isKeyDown (keyOperand (s.reg x)) == whenDown) s) :=
  if_neg (Nat.not_lt.2 h)

theorem keySkip_of_lt {x : RegIdx} (whenDown : Bool) (h : 15 < (s.reg x).toNat) :
    keySkip x whenDown s = .next (raiseFatal .keyOutOfRange (s.reg x).toNat s) := if_pos h

theorem isKeyDown_keyOperand {b : Byte} {k : Fin 16} (h : b.toNat = k.val) :
    s.isKeyDown (keyOperand b) = s.keys[k.val] := by
  have hk : (keyOperand b).toNat = k.val := by
    rw [keyOperand, BitVec.toNat_setWidth, h]
    omega
  simp only [State.isKeyDown, hk]

/-- Settles O51: for a key number the handler is one skip on that key's state, and a larger number is fatal. -/
theorem keySkipsConsultTheNumberedKey : Obligations.KeySkipsConsultTheNumberedKey := by
  refine fun x s => ⟨decodeWord_encode (.skp x), decodeWord_encode (.sknp x), fun k hk => ⟨?_, ?_⟩,
    fun h => ⟨?_, ?_⟩⟩
  · refine ⟨_, (exec_skp x s).trans (keySkip_of_le true (by omega)), ?_, keptExcept_skipIf _ s⟩
    rw [skipIf_pc, isKeyDown_keyOperand hk]
    cases s.keys[k.val] <;> rfl
  · refine ⟨_, (exec_sknp x s).trans (keySkip_of_le false (by omega)), ?_, keptExcept_skipIf _ s⟩
    rw [skipIf_pc, isKeyDown_keyOperand hk]
    cases s.keys[k.val] <;> rfl
  · exact ⟨_, (exec_skp x s).trans (keySkip_of_lt true h), raiseFatal_halts _ _ s⟩
  · exact ⟨_, (exec_sknp x s).trans (keySkip_of_lt false h), raiseFatal_halts _ _ s⟩

/-! ### How a wait ends, by its listed polls -/

/-- After quiet polls the wait is what the polls after them make of the key state they leave. -/
theorem keyWait_of_quietPolls {quiet rest : List PollAnswer} {before : Vector Bool 16}
    (hlist : s.pollAnswers = quiet ++ rest) (hquiet : quietPolls s.keys quiet before) :
    keyWait s = waitPolls s.pollDraws before rest := by
  rw [keyWait, hlist, waitPolls_quiet hquiet]

/-- A poll in which some key goes down ends the wait with such a key, the environment's choice if it went down
(R179; log 7). -/
theorem waitPolls_of_edge {n : Nat} {before keys : Vector Bool 16} {report : Nibble} (rest : List PollAnswer)
    {j : Fin 16} (hup : before[j.val] = false) (hdown : keys[j.val] = true) :
    ∃ k : Nibble, waitPolls n before (.proceed keys report :: rest) = ⟨some (.key k), keys, rest, n⟩ ∧
      keyWentDown before keys k = true ∧ (keyWentDown before keys report = true → k = report) := by
  obtain ⟨hsome, hreport, hnone⟩ := reportedKey_spec before keys report
  have hedge : keyWentDown before keys (BitVec.ofFin j) = true := by
    simp [keyWentDown, hup, hdown]
  cases hk : reportedKey before keys report with
  | none =>
    rw [hnone.1 hk] at hedge
    cases hedge
  | some k =>
    refine ⟨k, by rw [waitPolls, hk], hsome k hk, fun hr => ?_⟩
    exact Option.some.inj (hk.symm.trans (hreport hr))

theorem keyWentDown_iff {old new : Vector Bool 16} {k : Nibble} :
    keyWentDown old new k = true ↔ old[k.toNat]'k.isLt = false ∧ new[k.toNat]'k.isLt = true := by
  simp [keyWentDown, and_comm]

/-! ### The handler of `Fx0A` -/

theorem exec_ldVxK (x : RegIdx) (s : State) : exec (.ldVxK x) s = execLdVxK x s := rfl

theorem exec_ldVxK_of_key (x : RegIdx) {k : Nibble} (h : waitEnd s = some (.key k)) : exec (.ldVxK x) s =
    .next (advance (((afterWait s).setWait none).setReg x (k.setWidth 8))) := by
  rw [exec_ldVxK, execLdVxK, h]

/-- A wait that ends with a key: its number is written, and the polls of the wait are used up (R182). -/
theorem exec_ldVxK_key_spec (x : RegIdx) {k : Nibble} (h : waitEnd s = some (.key k)) :
    ∃ t, exec (.ldVxK x) s = .next t ∧ (t.reg x).toNat = k.toNat ∧ t.wait = none ∧
      t.keys = (keyWait s).keys ∧ t.pollAnswers = (keyWait s).answers ∧ t.pollDraws = (keyWait s).draws ∧
      t.pc = s.pc + 2 ∧ regsKept s t [x] ∧ keptExcept s t [.regs, .wait, .keys, .polls, .pc] := by
  refine ⟨_, exec_ldVxK_of_key x h, ?_, rfl, rfl, rfl, rfl, rfl, ?_, ?_⟩
  · rw [advance_reg, State.setReg_reg_self]
    exact BitVec.toNat_setWidth_of_le (by decide)
  · exact regsKept_setReg ((afterWait s).setWait none) x _ (by simp)
  · refine keptExcept_trans (keptExcept_mono (keptExcept_afterWait s) (by simp)) ?_
    refine keptExcept_trans (keptExcept_mono (keptExcept_setWait _ none) (by simp)) ?_
    exact keptExcept_mono (keptExcept_advance_of (keptExcept_setReg _ x _)) (by simp)

theorem exec_ldVxK_of_quit (x : RegIdx) (h : waitEnd s = some .quit) :
    exec (.ldVxK x) s = .next (stopEngine (afterWait s)) := by
  rw [exec_ldVxK, execLdVxK, h]

theorem exec_ldVxK_of_none (x : RegIdx) (h : waitEnd s = none) :
    exec (.ldVxK x) s = .fault .keyWaitUnanswered := by
  rw [exec_ldVxK, execLdVxK, h]

theorem keptExcept_stopEngine_afterWait (s : State) :
    keptExcept s (stopEngine (afterWait s)) [.status, .wait, .keys, .polls] :=
  keptExcept_trans (keptExcept_mono (keptExcept_afterWait s) (by simp))
    (keptExcept_mono (keptExcept_stopEngine _) (by simp))

/-! ### The statements -/

/-- Settles O52: the quiet polls leave the wait to the poll with the edge, which ends it with the reported key. -/
theorem keyWaitWritesAKeyThatWentDown : Obligations.KeyWaitWritesAKeyThatWentDown := by
  refine fun x s => ⟨decodeWord_encode (.ldVxK x), ?_⟩
  rintro quiet rest before keys report hlist hquiet ⟨j, hup, hdown⟩
  obtain ⟨k, hwait, hk, hreport⟩ := waitPolls_of_edge (n := s.pollDraws) (report := report) rest hup hdown
  have hkeyWait := (keyWait_of_quietPolls hlist hquiet).trans hwait
  have hend : waitEnd s = some (.key k) := congrArg KeyWait.ending hkeyWait
  obtain ⟨hkUp, hkDown⟩ := keyWentDown_iff.1 hk
  obtain ⟨t, ht, hx, hnone, hkeys, hanswers, hdraws, hkept⟩ := exec_ldVxK_key_spec x hend
  rw [hkeyWait] at hkeys hanswers hdraws
  exact ⟨t, k.toFin, ht, hkUp, hkDown, hx,
    fun hrUp hrDown => congrArg BitVec.toNat (hreport (keyWentDown_iff.2 ⟨hrUp, hrDown⟩)),
    hnone, hkeys, hanswers, hdraws, hkept⟩

/-- Settles O53: quiet polls leave the wait to the free value, and each of its three cases is one way the handler
goes. -/
theorem keyWaitStaysSuspendedWithoutAnEdge : Obligations.KeyWaitStaysSuspendedWithoutAnEdge := by
  intro x s after hquiet
  have hkeyWait : keyWait s = freeKeyWait s.pollDraws after :=
    keyWait_of_quietPolls (List.append_nil _).symm hquiet
  unfold freeKeyWait at hkeyWait
  cases hfree : Config.freeWait s.pollDraws with
  | none =>
    rw [hfree] at hkeyWait
    exact .inl ⟨rfl, exec_ldVxK_of_none x (congrArg KeyWait.ending hkeyWait)⟩
  | some e =>
    rw [hfree] at hkeyWait
    cases e with
    | quit =>
      exact .inr (.inl ⟨_, rfl, exec_ldVxK_of_quit x (congrArg KeyWait.ending hkeyWait), rfl, rfl,
        keptExcept_stopEngine_afterWait s⟩)
    | key k =>
      obtain ⟨t, ht, hx, hnone, hkeys, -, -, hkept⟩ :=
        exec_ldVxK_key_spec x (congrArg KeyWait.ending hkeyWait)
      rw [hkeyWait] at hkeys
      refine .inr (.inr ⟨t, k, rfl, ht, hx, ?_, hnone, hkept⟩)
      simp only [State.isKeyDown, hkeys, Vector.getElem_set_self]

/-- Settles O54: the quiet polls leave the wait to `Quit`, which ends it in the key state they left. -/
theorem quitInTheKeyWaitStopsTheEngine : Obligations.QuitInTheKeyWaitStopsTheEngine := by
  intro x s quiet rest before hlist hquiet
  have hkeyWait : keyWait s = ⟨some .quit, before, rest, s.pollDraws⟩ := keyWait_of_quietPolls hlist hquiet
  exact ⟨_, exec_ldVxK_of_quit x (congrArg KeyWait.ending hkeyWait), rfl, rfl,
    congrArg KeyWait.keys hkeyWait, congrArg KeyWait.answers hkeyWait, keptExcept_stopEngine_afterWait s⟩

end Sys2Proof.Machine
end

section
/-! The random source (R183, R184): the byte under the mask, whichever byte it is. -/

namespace Sys2Proof.Machine

theorem exec_rnd (x : RegIdx) (nn : Byte) (s : State) :
    exec (.rnd x nn) s = writeResult x (randomByte s &&& nn) (consumeRandom s) := rfl

/-- The state in which the random source has the byte `b` ready. -/
def State.withRandomByte (s : State) (b : Byte) : State := { s with randomAnswers := [b] }

theorem keptExcept_withRandomByte (s : State) (b : Byte) : keptExcept s (s.withRandomByte b) [.randoms] := by
  intro p hp
  cases p <;> simp_all [kept, State.withRandomByte, State.reg]

theorem exec_rnd_spec (x : RegIdx) (nn : Byte) (s : State) :
    ∃ t, exec (.rnd x nn) s = .next t ∧ t.reg x = randomByte s &&& nn ∧
      t.randomAnswers = (consumeRandom s).randomAnswers ∧ t.randomDraws = (consumeRandom s).randomDraws ∧
      t.pc = s.pc + 2 ∧ regsKept s t [x] ∧ keptExcept s t [.regs, .randoms, .pc] := by
  obtain ⟨t, ht, hx, hpc, hregs, hkept⟩ := writeResult_spec x (randomByte s &&& nn) (consumeRandom s)
  have hconsume := keptExcept_consumeRandom s
  obtain ⟨hanswers, hdraws⟩ := hkept .randoms (by simp)
  refine ⟨t, (exec_rnd x nn s).trans ht, hx, hanswers, hdraws, ?_, ?_, ?_⟩
  · rw [hpc, hconsume .pc (by simp)]
  · exact regsKept_trans (regsKept_of_kept (hconsume .regs (by simp)) _) hregs
  · exact keptExcept_trans (keptExcept_mono hconsume (by simp)) (keptExcept_mono hkept (by simp))

/-- A byte with no bit outside the mask is its own masked value. -/
theorem and_eq_self_of_and_not_eq_zero {v nn : Byte} (h : v &&& ~~~nn = 0) : v &&& nn = v := by
  have hsplit : v &&& nn ||| v &&& ~~~nn = v := by
    rw [← BitVec.and_or_distrib_left, BitVec.or_not_self]
    exact BitVec.and_allOnes
  rw [h] at hsplit
  exact BitVec.or_zero.symm.trans hsplit

/-- Settles O55: the handler writes the source's byte under the mask; with `v` ready, `v` itself. -/
theorem randomByteIsMasked : Obligations.RandomByteIsMasked := by
  refine fun x nn s => ⟨decodeWord_encode (.rnd x nn), ?_, fun v hv => ?_⟩
  · obtain ⟨t, ht, hx, hanswers, hdraws, hkept⟩ := exec_rnd_spec x nn s
    refine ⟨t, randomByte s, ht, hx, fun b' rest hlist => ?_, fun hempty => ?_, fun k hk => ?_, hkept⟩
    · obtain ⟨hb, hrest⟩ := random_listed hlist
      exact ⟨hb, hanswers.trans hrest⟩
    · obtain ⟨hb, hcount⟩ := random_free hempty
      exact ⟨hb, hdraws.trans hcount⟩
    · rw [hx, BitVec.getLsbD_and, hk, Bool.and_false]
  · obtain ⟨t, ht, hx, -⟩ := exec_rnd_spec x nn (s.withRandomByte v)
    exact ⟨_, t, keptExcept_withRandomByte s v, ht, hx.trans (and_eq_self_of_and_not_eq_zero hv)⟩

end Sys2Proof.Machine
end

section
/-! What every handler can do, said once for all 34 instructions: it completes, changing its own parts and going on
to one of a few places; it halts the engine for a cause of its own, changing the status alone; or, for `Fx0A`, it
stops the engine. -/

namespace Sys2Proof.Machine

variable {s t u : State}

/-- Where a completed handler goes on: 2 or 4 further, at an address, or 2 after a live frame (R87, R100 to
R108). -/
inductive NextPc (s : State) : Word → Prop
  | default : NextPc s (s.pc + 2)
  | skip : NextPc s (s.pc + 4)
  | target (w : Word) (h : w.toNat ≤ 0xFFF) : NextPc s w
  | resume (k : Fin 16) (h : k.val < s.sp.val) : NextPc s (s.stack[k.val] + 2)

/-- What a completed handler does to the stack: it keeps the slots and raises no stack pointer, or it pushes `pc`
(R22, R101, R102). -/
inductive StackMove (s t : State) : Prop
  | kept (hsp : t.sp.val ≤ s.sp.val) (hstack : t.stack = s.stack)
  | pushed (hroom : s.stackHasRoom) (hsp : t.sp.val = s.sp.val + 1)
      (hstack : t.stack = s.stack.set s.sp.val s.pc s.sp.isLt)

/-- A completed handler that may change `parts` and write the registers `writes`. -/
structure Completes (parts : List Part) (writes : List RegIdx) (s t : State) : Prop where
  kept : keptExcept s t parts
  regs : regsKept s t writes
  memory : s.mem.wf → t.mem.wf
  nextPc : NextPc s t.pc
  stack : StackMove s t
  notWaiting : s.wait = none → t.wait = none

/-- Why an instruction halts a running engine, with what kind and info (R200, R208). -/
inductive HaltCause (s : State) : Instr → FatalKind → Nat → Prop
  | full (nnn : Addr12) (h : s.sp = 15) : HaltCause s (.call nnn) .stackOverflow s.pc.toNat
  | empty (h : s.sp = 0) : HaltCause s .ret .stackUnderflow s.pc.toNat
  | target (nnn : Addr12) (h : 0xFFF < offsetTarget s nnn) :
      HaltCause s (.jpV0 nnn) .pcOutOfRange (offsetTarget s nnn)
  | index (x : RegIdx) (h : 0xFFFF < indexSum s x) : HaltCause s (.addI x) .indexOverflow (indexSum s x)
  | digits (x : RegIdx) (h : 0xFFF < indexedAddr s 2) :
      HaltCause s (.ldB x) .memoryOutOfRange (indexedAddr s 2)
  | dump (x : RegIdx) (h : 0xFFF < indexedAddr s x.toNat) :
      HaltCause s (.ldMemVx x) .memoryOutOfRange (indexedAddr s x.toNat)
  | load (x : RegIdx) (h : 0xFFF < indexedAddr s x.toNat) :
      HaltCause s (.ldVxMem x) .memoryOutOfRange (indexedAddr s x.toNat)
  | sprite (x y : RegIdx) (n : Nibble) (hn : n ≠ 0) (h : 0xFFF < indexedAddr s (n.toNat - 1)) :
      HaltCause s (.drw x y n) .memoryOutOfRange (indexedAddr s (n.toNat - 1))
  | keyDown (x : RegIdx) (h : 15 < (s.reg x).toNat) : HaltCause s (.skp x) .keyOutOfRange (s.reg x).toNat
  | keyUp (x : RegIdx) (h : 15 < (s.reg x).toNat) : HaltCause s (.sknp x) .keyOutOfRange (s.reg x).toNat

/-- The three ends of a handler that answers. -/
inductive ExecEnd (i : Instr) (s t : State) : Prop
  | completes (h : Completes i.parts i.writes s t)
  | halts (k : FatalKind) (n : Nat) (cause : HaltCause s i k n) (h : t = raiseFatal k n s)
  | stops (x : RegIdx) (hi : i = .ldVxK x) (hwait : waitEnd s = some .quit) (h : t = stopEngine (afterWait s))

/-! ### Completed handlers, by their shape -/

/-- A handler that leaves the stack, the wait and the memory list alone completes by its frame. -/
theorem completes_of_kept {parts : List Part} {writes : List RegIdx} (hkept : keptExcept s t parts)
    (hregs : regsKept s t writes) (hpc : NextPc s t.pc) (hmem : t.mem = s.mem) (hstack : .stack ∉ parts)
    (hwait : .wait ∉ parts) : Completes parts writes s t where
  kept := hkept
  regs := hregs
  memory h := hmem.symm ▸ h
  nextPc := hpc
  stack := by
    obtain ⟨hsp, hslots⟩ := hkept .stack hstack
    exact .kept (hsp ▸ le_rfl) hslots
  notWaiting h := (hkept .wait hwait).trans h

theorem completes_of_writeResult {x : RegIdx} {b : Byte} (h : writeResult x b s = .next t) :
    Completes [.regs, .pc] [x] s t := by
  cases h
  exact completes_of_kept (keptExcept_advance_of (keptExcept_setReg s x b)) (regsKept_setReg s x b (by simp))
    .default rfl (by decide) (by decide)

theorem completes_of_twoWrites {x y : RegIdx} {a b : Byte}
    (h : finish ((s.setReg x a).setReg y b) = .next t) : Completes [.regs, .pc] [x, y] s t := by
  obtain ⟨t', ht', -, -, hpc, hregs, hkept⟩ := twoWrites_spec x y a b s
  cases h
  cases ht'
  exact completes_of_kept hkept hregs .default rfl (by decide) (by decide)

theorem completes_of_skipIf (c : Bool) (s : State) : Completes [.pc] [] s (skipIf c s) := by
  refine completes_of_kept (keptExcept_skipIf c s)
    (regsKept_of_kept (keptExcept_skipIf c s .regs (by simp)) []) ?_ ?_ (by decide) (by decide)
  · rw [skipIf_pc]
    cases c
    · exact .default
    · exact .skip
  · cases c <;> rfl

theorem completes_of_setPc {w : Word} (s : State) (h : w.toNat ≤ 0xFFF) : Completes [.pc] [] s (s.setPc w) :=
  completes_of_kept (keptExcept_setPc s w) (regsKept_refl s []) (.target w h) rfl (by decide) (by decide)

/-- The update of one part other than registers, memory, stack and wait, and then the default advance. -/
theorem completes_of_update {p : Part} (hkept : keptExcept s u [p]) (hregs : kept s u .regs)
    (hpc : u.pc = s.pc) (hmem : u.mem = s.mem) (hstack : .stack ≠ p) (hwait : .wait ≠ p) :
    Completes [p, .pc] [] s (advance u) :=
  completes_of_kept (keptExcept_advance_of hkept) (regsKept_of_kept hregs []) (by
    rw [advance_pc, hpc]
    exact .default) hmem (by simpa using hstack) (by simpa using hwait)

/-- A store and then the default advance. -/
theorem completes_of_setMem (s : State) {m : Memory} (hm : s.mem.wf → m.wf) :
    Completes [.memory, .pc] [] s (advance (s.setMem m)) where
  kept := keptExcept_advance_setMem s m
  regs := regsKept_refl s []
  memory := hm
  nextPc := .default
  stack := .kept le_rfl rfl
  notWaiting h := h

/-! ### The handlers with a check of their own -/

theorem execEnd_call {nnn : Addr12} (h : exec (.call nnn) s = .next t) : ExecEnd (.call nnn) s t := by
  have haddr : (addrOperand nnn).toNat ≤ 0xFFF := by
    rw [addrOperand_toNat]
    omega
  by_cases hroom : s.stackHasRoom
  · rw [exec_call_of_stackHasRoom nnn hroom] at h
    cases h
    refine .completes ⟨?_, regsKept_refl s [], id, .target _ haddr, .pushed hroom rfl rfl, id⟩
    exact keptExcept_mono (keptExcept_setPc_of (keptExcept_push s s.pc hroom) _) (by simp [Instr.parts])
  · have hge : ¬ s.sp.val < 15 := hroom
    have hfull : s.sp = 15 := Fin.ext (show s.sp.val = 15 by omega)
    rw [exec_call_of_full nnn hroom] at h
    cases h
    exact .halts _ _ (.full nnn hfull) rfl

theorem execEnd_ret (h : exec .ret s = .next t) : ExecEnd .ret s t := by
  by_cases hempty : s.sp = 0
  · rw [exec_ret_of_empty hempty] at h
    cases h
    exact .halts _ _ (.empty hempty) rfl
  · have hpos : s.sp.val ≠ 0 := fun e => hempty (Fin.ext e)
    have hslot : s.spBelow.val + 1 = s.sp.val := Nat.sub_add_cancel (Nat.pos_of_ne_zero hpos)
    rw [exec_ret_of_frame hslot] at h
    cases h
    refine .completes ⟨?_, regsKept_refl s [], id, .resume s.spBelow (by omega), .kept ?_ rfl, id⟩
    · exact keptExcept_mono (keptExcept_setPc_of (keptExcept_pop s) _) (by simp [Instr.parts])
    · exact Nat.sub_le s.sp.val 1

theorem execEnd_jpV0 {nnn : Addr12} (h : exec (.jpV0 nnn) s = .next t) : ExecEnd (.jpV0 nnn) s t := by
  rcases Nat.lt_or_ge 0xFFF (offsetTarget s nnn) with hout | hin
  · rw [exec_jpV0_of_lt hout] at h
    cases h
    exact .halts _ _ (.target nnn hout) rfl
  · rw [exec_jpV0_of_le hin] at h
    cases h
    exact .completes (completes_of_setPc s ((toNat_ofNat_offsetTarget hin).trans_le hin))

theorem execEnd_addI {x : RegIdx} (h : exec (.addI x) s = .next t) : ExecEnd (.addI x) s t := by
  obtain ⟨-, hfits, -⟩ := addToIndexFlagsTheAddressRange x s
  rcases Nat.lt_or_ge 0xFFFF (indexSum s x) with hout | hin
  · rw [exec_addI_of_lt hout] at h
    cases h
    exact .halts _ _ (.index x hout) rfl
  · obtain ⟨t', ht', -, -, -, hregs, hkept⟩ := hfits hin
    rw [exec_addI_of_le hin] at h ht'
    cases h
    cases ht'
    exact .completes (completes_of_kept hkept hregs .default rfl (by simp [Instr.parts]) (by simp [Instr.parts]))

theorem execEnd_drw {x y : RegIdx} {n : Nibble} (h : exec (.drw x y n) s = .next t) :
    ExecEnd (.drw x y n) s t := by
  by_cases hfits : n = 0 ∨ indexedAddr s (n.toNat - 1) ≤ 0xFFF
  · obtain ⟨-, hdraw⟩ := drawInvertsTheSpritesPixels x y n s
    obtain ⟨t', ht', -, -, -, -, -, hregs, hkept⟩ := hdraw hfits
    rw [exec_drw_of_fits hfits] at h ht'
    cases h
    cases ht'
    exact .completes (completes_of_kept hkept hregs .default rfl (by simp [Instr.parts]) (by simp [Instr.parts]))
  · obtain ⟨hn, hout⟩ := not_or.1 hfits
    rw [exec_drw_of_lt hn (Nat.not_le.1 hout)] at h
    cases h
    exact .halts _ _ (.sprite x y n hn (Nat.not_le.1 hout)) rfl

/-- A key skip halts for its cause or skips. -/
theorem execEnd_of_keySkip {i : Instr} {x : RegIdx} {whenDown : Bool} (h : keySkip x whenDown s = .next t)
    (hcause : 15 < (s.reg x).toNat → HaltCause s i .keyOutOfRange (s.reg x).toNat)
    (hskip : ∀ c, Completes i.parts i.writes s (skipIf c s)) : ExecEnd i s t := by
  rcases Nat.lt_or_ge 15 (s.reg x).toNat with hout | hin
  · rw [keySkip_of_lt whenDown hout] at h
    cases h
    exact .halts _ _ (hcause hout) rfl
  · rw [keySkip_of_le whenDown hin] at h
    cases h
    exact .completes (hskip _)

/-- A transfer checked by `withIndexed` halts for its cause or does what it does. -/
theorem execEnd_of_withIndexed {i : Instr} {k : Nat} (h : withIndexed k s u = .next t)
    (hcause : 0xFFF < indexedAddr s k → HaltCause s i .memoryOutOfRange (indexedAddr s k))
    (hu : Completes i.parts i.writes s (advance u)) : ExecEnd i s t := by
  rcases Nat.lt_or_ge 0xFFF (indexedAddr s k) with hout | hin
  · rw [withIndexed_of_lt hout] at h
    cases h
    exact .halts _ _ (hcause hout) rfl
  · rw [withIndexed_of_le hin] at h
    cases h
    exact .completes hu

theorem regsKept_loadRegs (x : RegIdx) (s : State) (a : Nat) :
    regsKept s (loadRegs s a (x.toNat + 1)) (Instr.ldVxMem x).writes := by
  intro r hr
  rw [loadRegs_reg s a _ (by omega), if_neg]
  intro hlt
  refine hr (List.mem_map.2 ⟨r.toNat, List.mem_range.2 hlt, ?_⟩)
  rw [BitVec.ofNat_toNat, BitVec.setWidth_eq]

theorem completes_loadRegs (x : RegIdx) (s : State) (a : Nat) :
    Completes [.regs, .pc] (Instr.ldVxMem x).writes s (advance (loadRegs s a (x.toNat + 1))) := by
  have hkept := keptExcept_loadRegs s a (x.toNat + 1)
  refine completes_of_kept (keptExcept_advance_of hkept) (regsKept_loadRegs x s a) ?_ (loadRegs_mem s a _)
    (by decide) (by decide)
  rw [advance_pc, hkept .pc (by simp)]
  exact .default

theorem execEnd_ldVxK {x : RegIdx} (h : exec (.ldVxK x) s = .next t) : ExecEnd (.ldVxK x) s t := by
  cases hend : waitEnd s with
  | none =>
    rw [exec_ldVxK_of_none x hend] at h
    cases h
  | some e =>
    cases e with
    | quit =>
      rw [exec_ldVxK_of_quit x hend] at h
      cases h
      exact .stops x rfl hend rfl
    | key k =>
      obtain ⟨t', ht', -, -, -, -, -, -, hregs, hkept⟩ := exec_ldVxK_key_spec x hend
      rw [exec_ldVxK_of_key x hend] at h ht'
      cases h
      cases ht'
      exact .completes ⟨hkept, hregs, id, .default, .kept le_rfl rfl, fun _ => rfl⟩

theorem execEnd_rnd {x : RegIdx} {nn : Byte} (h : exec (.rnd x nn) s = .next t) : ExecEnd (.rnd x nn) s t := by
  obtain ⟨t', ht', -, -, -, hpc, hregs, hkept⟩ := exec_rnd_spec x nn s
  cases h
  cases ht'
  exact .completes (completes_of_kept hkept hregs (hpc ▸ .default) (consumeRandom_mem s)
    (by simp [Instr.parts]) (by simp [Instr.parts]))

/-- Every answer of a handler is one of the three ends. -/
theorem execEnd (i : Instr) (s t : State) (h : exec i s = .next t) : ExecEnd i s t := by
  cases i
  case cls =>
    cases h
    exact .completes (completes_of_update (keptExcept_setScreen s _) (fun _ => rfl) rfl rfl (by decide) (by decide))
  case ret => exact execEnd_ret h
  case jp nnn =>
    cases h
    exact .completes (completes_of_setPc s (by rw [addrOperand_toNat]; omega))
  case call nnn => exact execEnd_call h
  case seImm | sneImm | seReg | sneReg =>
    cases h
    exact .completes (completes_of_skipIf _ s)
  case ldImm | addImm | ldReg | or | and | xor | ldVxDt => exact .completes (completes_of_writeResult h)
  case addReg | sub | shr | subn | shl => exact .completes (completes_of_twoWrites h)
  case ldI | ldF =>
    cases h
    exact .completes (completes_of_update (keptExcept_setIndex s _) (fun _ => rfl) rfl rfl (by decide) (by decide))
  case jpV0 nnn => exact execEnd_jpV0 h
  case rnd x nn => exact execEnd_rnd h
  case drw x y n => exact execEnd_drw h
  case skp x => exact execEnd_of_keySkip h (.keyDown x) fun c => completes_of_skipIf c s
  case sknp x => exact execEnd_of_keySkip h (.keyUp x) fun c => completes_of_skipIf c s
  case ldVxK x => exact execEnd_ldVxK h
  case ldDtVx x =>
    cases h
    exact .completes (completes_of_update (keptExcept_setDelay s _) (fun _ => rfl) rfl rfl (by decide) (by decide))
  case ldStVx x =>
    cases h
    exact .completes (completes_of_update (keptExcept_setSound s _) (fun _ => rfl) rfl rfl (by decide) (by decide))
  case addI x => exact execEnd_addI h
  case ldB x =>
    exact execEnd_of_withIndexed h (.digits x) (completes_of_setMem s fun hwf => wf_storeDigits hwf _ _)
  case ldMemVx x =>
    exact execEnd_of_withIndexed h (.dump x) (completes_of_setMem s fun hwf => wf_dumpRegs hwf _ _)
  case ldVxMem x => exact execEnd_of_withIndexed h (.load x) (completes_loadRegs x s _)

end Sys2Proof.Machine
end

section
/-! What follows for every instruction from the three ends of a handler: fatal endings (R200 to R208), frames (R11 to
R45) and the bytes a store may touch. -/

namespace Sys2Proof.Machine

variable {i : Instr} {s t : State} {k : FatalKind} {n : Nat}

theorem status_not_mem_parts (i : Instr) : .status ∉ i.parts := by
  cases i <;> simp [Instr.parts]

theorem completes_status (h : Completes i.parts i.writes s t) : t.status = s.status :=
  h.kept .status (status_not_mem_parts i)

/-! ### Fatal endings -/

/-- A handler that leaves a running engine halted took `raiseFatal`, for a cause of the instruction. -/
theorem exec_halted (hs : s.status = .running) (h : exec i s = .next t) (ht : t.status = .halted k n) :
    HaltCause s i k n ∧ t = raiseFatal k n s := by
  rcases execEnd i s t h with hc | ⟨k', n', cause, rfl⟩ | ⟨x, -, -, rfl⟩
  · rw [completes_status hc, hs] at ht
    cases ht
  · cases ht
    exact ⟨cause, rfl⟩
  · cases ht

/-- Settles O14: such an ending is `raiseFatal`, which changes the status alone. -/
theorem fatalInstructionChangesOnlyTheStatus : Obligations.FatalInstructionChangesOnlyTheStatus := by
  intro i s t k n hs h ht
  obtain ⟨-, rfl⟩ := exec_halted hs h ht
  exact raiseFatal_halts k n s

/-- Settles O15: the causes of `HaltCause`, each with its kind, condition and info. -/
theorem eachInstructionRaisesOnlyItsOwnKind : Obligations.EachInstructionRaisesOnlyItsOwnKind := by
  intro i s t k n hs h ht
  obtain ⟨cause, -⟩ := exec_halted hs h ht
  cases cause with
  | full nnn hsp => exact .inl ⟨rfl, rfl, hsp, nnn, rfl⟩
  | empty hsp => exact .inr (.inl ⟨rfl, rfl, hsp, rfl⟩)
  | target nnn hn => exact .inr (.inr (.inl ⟨rfl, hn, nnn, rfl, rfl⟩))
  | index x hn => exact .inr (.inr (.inr (.inl ⟨rfl, hn, x, rfl, rfl⟩)))
  | digits x hn => exact .inr (.inr (.inr (.inr (.inl ⟨rfl, hn, .inl ⟨x, rfl, rfl⟩⟩))))
  | dump x hn => exact .inr (.inr (.inr (.inr (.inl ⟨rfl, hn, .inr (.inl ⟨x, .inl rfl, rfl⟩)⟩))))
  | load x hn => exact .inr (.inr (.inr (.inr (.inl ⟨rfl, hn, .inr (.inl ⟨x, .inr rfl, rfl⟩)⟩))))
  | sprite x y m hm hn =>
    exact .inr (.inr (.inr (.inr (.inl ⟨rfl, hn, .inr (.inr ⟨x, y, m, rfl, hm, rfl⟩)⟩))))
  | keyDown x hn => exact .inr (.inr (.inr (.inr (.inr ⟨rfl, hn, x, .inl rfl, rfl⟩))))
  | keyUp x hn => exact .inr (.inr (.inr (.inr (.inr ⟨rfl, hn, x, .inr rfl, rfl⟩))))

/-! ### Frames -/

/-- Settles O20: neither of the other two ends leaves the engine running. -/
theorem instructionsChangeOnlyTheirOwnParts : Obligations.InstructionsChangeOnlyTheirOwnParts := by
  intro i s t hs h ht
  rcases execEnd i s t h with hc | ⟨k, n, -, rfl⟩ | ⟨x, -, -, rfl⟩
  · exact ⟨hc.kept, hc.regs⟩
  · cases ht
  · cases ht

/-- Only the two stores list memory among their parts (R45). -/
theorem store_of_memory_mem_parts (h : .memory ∈ i.parts) : (∃ x, i = .ldB x) ∨ ∃ x, i = .ldMemVx x := by
  cases i <;> simp [Instr.parts] at h ⊢

/-- A store either was out of range, and left memory alone, or wrote `m` (R47). -/
theorem withIndexed_setMem_mem {j : Nat} {m : Memory} (h : withIndexed j s (s.setMem m) = .next t) :
    t.mem = s.mem ∨ t.mem = m := by
  rcases Nat.lt_or_ge 0xFFF (indexedAddr s j) with hout | hin
  · rw [withIndexed_of_lt hout] at h
    cases h
    exact .inl rfl
  · rw [withIndexed_of_le hin] at h
    cases h
    exact .inr rfl

theorem exec_ldB_read_outside {x : RegIdx} (h : exec (.ldB x) s = .next t) {a : Nat}
    (ha : a < indexedAddr s 0 ∨ indexedAddr s 0 + 3 ≤ a) : t.mem.read a = s.mem.read a := by
  rcases withIndexed_setMem_mem h with hm | hm
  · rw [hm]
  · rw [hm, read_storeDigits_outside _ _ _ a ha]

theorem exec_ldMemVx_read_outside {x : RegIdx} (h : exec (.ldMemVx x) s = .next t) {a : Nat}
    (ha : a < indexedAddr s 0 ∨ indexedAddr s 0 + (x.toNat + 1) ≤ a) : t.mem.read a = s.mem.read a := by
  rcases withIndexed_setMem_mem h with hm | hm
  · rw [hm]
  · rw [hm, read_dumpRegs_outside s _ _ a ha]

/-- An instruction that is no store leaves every byte, however it ends. -/
theorem exec_memory_kept (hi : .memory ∉ i.parts) (h : exec i s = .next t) : kept s t .memory := by
  rcases execEnd i s t h with hc | ⟨k, n, -, rfl⟩ | ⟨x, -, -, rfl⟩
  · exact hc.kept .memory hi
  · exact kept_refl s .memory
  · exact kept_refl s .memory

/-- Settles O21: the two stores change only what they store, and no other instruction has memory among its
parts. -/
theorem memoryChangesOnlyWhereBytesAreStored : Obligations.MemoryChangesOnlyWhereBytesAreStored := by
  intro i s t h a ha
  by_cases hi : .memory ∈ i.parts
  · rcases store_of_memory_mem_parts hi with ⟨x, rfl⟩ | ⟨x, rfl⟩
    · exact exec_ldB_read_outside h ha
    · exact exec_ldMemVx_read_outside h ha
  · exact exec_memory_kept hi h a

end Sys2Proof.Machine
end

section
/-! The canonical form of memory (R40; log 20): the list holds exactly the bytes that read unlike the reset
contents, in one order. -/

namespace Sys2Proof.Machine.Memory

theorem mem_of_read_ne_unlistedByte {m : Memory} {a : Nat} (h : m.read a ≠ unlistedByte a) :
    (a, m.read a) ∈ m := by
  induction m with
  | nil => exact absurd (read_nil a) h
  | cons c m ih =>
    by_cases hc : c.1 = a
    · subst hc
      simp [Memory.read]
    · rw [Memory.read, if_neg hc] at h ⊢
      exact List.mem_cons_of_mem c (ih h)

theorem mem_iff_read {m : Memory} (h : m.wf) (c : Host.Cell) :
    c ∈ m ↔ m.read c.1 = c.2 ∧ c.2 ≠ unlistedByte c.1 := by
  obtain ⟨hsorted, hcells⟩ := h
  constructor
  · exact fun hc => ⟨read_eq_of_mem hsorted hc, (hcells c hc).2⟩
  · rintro ⟨hread, hne⟩
    rw [← hread] at hne
    have hmem := mem_of_read_ne_unlistedByte hne
    rwa [hread] at hmem

/-- Settles O22: the two lists have the same cells, and both are strictly sorted by address. -/
theorem canonicalMemoriesThatReadAlikeAreEqual : Obligations.CanonicalMemoriesThatReadAlikeAreEqual := by
  intro m m' h h' hread
  have hasymm : Std.Antisymm fun c d : Host.Cell => c.1 < d.1 :=
    ⟨fun _ _ hlt hgt => absurd hgt (Nat.lt_asymm hlt)⟩
  have hirrefl : Std.Irrefl fun c d : Host.Cell => c.1 < d.1 := ⟨fun c => Nat.lt_irrefl c.1⟩
  refine List.Pairwise.eq_of_mem_iff h.1 h'.1 fun c => ?_
  rw [mem_iff_read h, mem_iff_read h', hread]

end Sys2Proof.Machine.Memory
end

section
/-! How a cycle begins and ends (R80 to R92, R177): what a poll, a fetch and the tick come to, and which states have
a step. -/

namespace Sys2Proof.Machine

variable {s t : State}

/-! ### Words and fetches -/

theorem wordOfBytes_high (hi lo : Byte) : (wordOfBytes hi lo).extractLsb' 8 8 = hi := by
  apply BitVec.eq_of_toNat_eq
  rw [BitVec.extractLsb'_toNat, wordOfBytes_toNat, Nat.shiftRight_eq_div_pow]
  omega

theorem wordOfBytes_low (hi lo : Byte) : (wordOfBytes hi lo).extractLsb' 0 8 = lo := by
  apply BitVec.eq_of_toNat_eq
  rw [BitVec.extractLsb'_toNat, wordOfBytes_toNat, Nat.shiftRight_zero]
  omega

/-- A running engine between cycles that is told to go on fetches the word at a `pc` in range (R81, R83). -/
theorem fetches_of_proceed (hs : s.status = .running) (hw : s.wait = none) {keys : Vector Bool 16}
    {report : Nibble} (hp : pollAnswer s = .proceed keys report) (hpc : s.pc.toNat ≤ 0xFFE) :
    s.Fetches (wordOfBytes (s.mem.read s.pc.toNat) (s.mem.read (s.pc.toNat + 1))) :=
  ⟨hs, hw, ⟨keys, report, hp⟩, hpc, (wordOfBytes_high _ _).symm, (wordOfBytes_low _ _).symm⟩

/-! ### The beginning of a cycle -/

theorem beginCycle_of_running (hs : s.status = .running) (hw : s.wait = none) :
    beginCycle s = pollAndFetch s := by
  rw [beginCycle, hs, hw]

theorem step_of_quit (hs : s.status = .running) (hw : s.wait = none) (hp : pollAnswer s = .quit) :
    step s = .next (stopEngine (afterPoll s)) := by
  rw [step, beginCycle_of_running hs hw, pollAndFetch, hp]

theorem step_of_pc_out_of_range (hs : s.status = .running) (hw : s.wait = none) {keys : Vector Bool 16}
    {report : Nibble} (hp : pollAnswer s = .proceed keys report) (hpc : 0xFFE < s.pc.toNat) :
    step s = .next (raiseFatal .pcOutOfRange s.pc.toNat (afterPoll s)) := by
  have hfetch : fetchWord (afterPoll s) = none := by
    rw [fetchWord, afterPoll_pc, if_pos hpc]
  rw [step, beginCycle_of_running hs hw, pollAndFetch, hp]
  simp only [fetchAndDispatch, hfetch, afterPoll_pc]

theorem step_of_waiting (hs : s.status = .running) (hw : s.wait ≠ none) : step s = .fault .cycleInProgress := by
  obtain ⟨x, hx⟩ := Option.ne_none_iff_exists'.1 hw
  rw [step, beginCycle, hs, hx]

theorem step_of_not_running (hs : s.status ≠ .running) : step s = .fault .engineNotRunning := by
  rw [step, beginCycle]
  cases h : s.status with
  | running => exact absurd h hs
  | stopped => rfl
  | halted k n => rfl

/-- A running engine between cycles has a step, or it dispatches the word it fetches. -/
theorem step_or_fetches (hs : s.status = .running) (hw : s.wait = none) :
    (∃ t, step s = .next t) ∨ ∃ w i, s.Fetches w ∧ decodeWord w = some i := by
  cases hp : pollAnswer s with
  | quit => exact .inl ⟨_, step_of_quit hs hw hp⟩
  | proceed keys report =>
    rcases Nat.lt_or_ge 0xFFE s.pc.toNat with hout | hin
    · exact .inl ⟨_, step_of_pc_out_of_range hs hw hp hout⟩
    · have hf := fetches_of_proceed hs hw hp hin
      cases hd : decodeWord (wordOfBytes (s.mem.read s.pc.toNat) (s.mem.read (s.pc.toNat + 1))) with
      | none => exact .inl ⟨_, hf.step_of_decodeWord_eq_none hd⟩
      | some i => exact .inr ⟨_, i, hf, hd⟩

/-- A fetched legal word has a step, unless it is an `Fx0A` whose wait the environment does not end (R182). -/
theorem State.Fetches.step_answers {w : Word} {i : Instr} (hf : s.Fetches w) (hd : decodeWord w = some i) :
    (∃ t, step s = .next t) ∨
      ∃ x, i = .ldVxK x ∧ waitEnd (afterPoll s) = none ∧ step s = .fault .keyWaitUnanswered := by
  rw [hf.step_eq hd]
  rcases exec_answers i (afterPoll s) with ⟨t, ht⟩ | ⟨x, hi, hend, hfault⟩
  · exact .inl ⟨_, by rw [ht]; rfl⟩
  · exact .inr ⟨x, hi, hend, by rw [hfault]; rfl⟩

theorem decodeWord_ldVxK (x : RegIdx) : decodeWord (ofNibblesByte 0xF x 0x0A) = some (.ldVxK x) :=
  decodeWord_encode (.ldVxK x)

/-- A running engine between cycles has a step, unless it fetches an `Fx0A` whose wait does not end. -/
theorem step_answers (hs : s.status = .running) (hw : s.wait = none) : (∃ t, step s = .next t) ∨
    ∃ x, s.Fetches (ofNibblesByte 0xF x 0x0A) ∧ waitEnd (afterPoll s) = none ∧
      step s = .fault .keyWaitUnanswered := by
  rcases step_or_fetches hs hw with hstep | ⟨w, i, hf, hd⟩
  · exact .inl hstep
  · rcases hf.step_answers hd with hstep | ⟨x, rfl, hend, hfault⟩
    · exact .inl hstep
    · have hword : ofNibblesByte 0xF x 0x0A = w := encode_of_decodeWord hd
      exact .inr ⟨x, hword ▸ hf, hend, hfault⟩

theorem State.Fetches.step_of_waitEnd_eq_none {x : RegIdx} (hf : s.Fetches (ofNibblesByte 0xF x 0x0A))
    (hend : waitEnd (afterPoll s) = none) : step s = .fault .keyWaitUnanswered := by
  rw [hf.step_eq (decodeWord_ldVxK x), exec_ldVxK_of_none x hend]
  rfl

/-! ### The statements -/

/-- Settles O7: the step is the handler on the polled state, and the poll changes its own parts alone. -/
theorem stepRunsTheDecodedInstruction : Obligations.StepRunsTheDecodedInstruction := by
  intro s w i hf hd
  obtain ⟨keys, report, hp⟩ := hf.polled
  exact ⟨hf.step_eq hd, ⟨keys, report, hp, afterPoll_keys hp⟩, fun _ _ hlist => poll_listed hlist,
    keptExcept_afterPoll s⟩

/-- A stop between cycles changes the status alone: there is no suspended call to drop. -/
theorem keptExcept_stopEngine_of_wait (hw : s.wait = none) : keptExcept s (stopEngine s) [.status] := by
  intro p hp
  by_cases hwait : p = .wait
  · subst hwait
    exact hw.symm
  · exact keptExcept_stopEngine s p (by simp_all)

/-- Settles O10: the cycle ends at the poll, which a `Quit` answers without a new key state. -/
theorem quitAtThePollStopsWithoutFetching : Obligations.QuitAtThePollStopsWithoutFetching := by
  intro s hs hw hp
  have hstop := keptExcept_stopEngine_of_wait ((afterPoll_wait s).trans hw)
  exact ⟨_, step_of_quit hs hw hp, rfl, keptExcept_trans (keptExcept_mono (keptExcept_afterPoll_quit hp) (by simp))
    (keptExcept_mono hstop (by simp))⟩

/-- Settles O11: the fetch is checked before it reads, and the cycle ends there. -/
theorem fetchBeyondMemoryIsFatal : Obligations.FetchBeyondMemoryIsFatal := fun s _ _ hs hw hp hpc =>
  ⟨_, step_of_pc_out_of_range hs hw hp hpc, rfl, keptExcept_raiseFatal_afterPoll .pcOutOfRange _ s⟩

/-- Settles O13: of the faults of `step`, one is for an engine that does not run, one for a suspended call, and one
for an `Fx0A` without an end. -/
theorem onlyARunningEngineTakesACycle : Obligations.OnlyARunningEngineTakesACycle := by
  refine ⟨fun s hs hw => ⟨?_, ?_⟩, fun s => step_of_waiting, fun s => step_of_not_running⟩
  · exact (step_answers hs hw).imp_right fun ⟨_, _, _, hfault⟩ => hfault
  · constructor
    · intro hfault
      rcases step_answers hs hw with ⟨t, ht⟩ | ⟨x, hf, hend, -⟩
      · rw [ht] at hfault
        cases hfault
      · exact ⟨⟨x, hf⟩, hend⟩
    · rintro ⟨⟨x, hf⟩, hend⟩
      exact hf.step_of_waitEnd_eq_none hend

end Sys2Proof.Machine
end

section
/-! The end of a cycle (R88, R91, R182): who ticks, that no step leaves a call suspended, and how a suspended call
goes on. -/

namespace Sys2Proof.Machine

variable {i : Instr} {s t : State}

/-! ### What a handler passes through -/

theorem exec_wait (hw : s.wait = none) (h : exec i s = .next t) : t.wait = none := by
  rcases execEnd i s t h with hc | ⟨k, n, -, rfl⟩ | ⟨x, -, -, rfl⟩
  · exact hc.notWaiting hw
  · exact hw
  · rfl

/-- A handler that ends the run of a running engine leaves both timers. -/
theorem exec_timers_of_not_running (hs : s.status = .running) (h : exec i s = .next t)
    (ht : t.status ≠ .running) : t.dt = s.dt ∧ t.st = s.st := by
  rcases execEnd i s t h with hc | ⟨k, n, -, rfl⟩ | ⟨x, -, -, rfl⟩
  · exact absurd ((completes_status hc).trans hs) ht
  · exact ⟨rfl, rfl⟩
  · exact ⟨rfl, rfl⟩

theorem tick_wait (s : State) : (tick s).wait = s.wait := rfl

/-- The tick's effect on a completed cycle (R88, R160). -/
theorem tick_spec (s : State) : (tick s).dt.toNat = s.dt.toNat - 1 ∧ (tick s).st.toNat = s.st.toNat - 1 ∧
    keptExcept s (tick s) [.delay, .sound] :=
  ⟨tick_dt_toNat s, tick_st_toNat s, keptExcept_tick s⟩

theorem endCycle_next (u : State) : ∃ t, endCycle (.next u) = .next t ∧ t.wait = u.wait := by
  by_cases h : cycleCompletes u
  · exact ⟨tick u, endCycle_of_cycleCompletes h, tick_wait u⟩
  · exact ⟨u, congrArg _ (if_neg h), rfl⟩

/-! ### What a step leaves -/

/-- A step begins between cycles and ends between cycles (R91, R92). -/
theorem step_wait (h : step s = .next t) : s.wait = none ∧ t.wait = none := by
  obtain ⟨-, hw, ⟨-, rfl⟩ | ⟨-, rfl⟩ | ⟨w, -, -, rfl⟩ | ⟨w, i, -, -, hcycle⟩⟩ := step_cases h
  · exact ⟨hw, rfl⟩
  · exact ⟨hw, (afterPoll_wait s).trans hw⟩
  · exact ⟨hw, (afterPoll_wait s).trans hw⟩
  · obtain ⟨u, hu, ⟨-, rfl⟩ | ⟨-, rfl⟩⟩ := endCycle_cases hcycle
    · exact ⟨hw, (tick_wait u).trans (exec_wait ((afterPoll_wait s).trans hw) hu)⟩
    · exact ⟨hw, exec_wait ((afterPoll_wait s).trans hw) hu⟩

/-- A step that ends the run leaves both timers, since nothing ticks before its end (R88). -/
theorem step_timers_of_not_running (h : step s = .next t) (ht : t.status ≠ .running) :
    t.dt = s.dt ∧ t.st = s.st := by
  obtain ⟨hs, -, ⟨-, rfl⟩ | ⟨-, rfl⟩ | ⟨w, -, -, rfl⟩ | ⟨w, i, -, -, hcycle⟩⟩ := step_cases h
  · exact ⟨afterPoll_dt s, afterPoll_st s⟩
  · exact ⟨afterPoll_dt s, afterPoll_st s⟩
  · exact ⟨afterPoll_dt s, afterPoll_st s⟩
  · obtain ⟨u, hu, ⟨hdone, rfl⟩ | ⟨-, rfl⟩⟩ := endCycle_cases hcycle
    · exact absurd hdone.1 ht
    · have htimers := exec_timers_of_not_running ((afterPoll_status s).trans hs) hu ht
      rwa [afterPoll_dt, afterPoll_st] at htimers

/-! ### Suspended calls -/

theorem keptExcept_addPolls (s : State) (as : List PollAnswer) : keptExcept s (s.addPolls as) [.polls] := by
  intro p hp
  cases p <;> simp_all [kept, State.addPolls, State.reg]

/-- The answers end a suspended call: the session goes on with the end of the cycle. -/
theorem answer_of_endCycle_next {a : Session} {as : List PollAnswer} {x : RegIdx} (hw : a.machine.wait = some x)
    (h : endCycle (exec (.ldVxK x) (a.machine.addPolls as)) = .next t) : a.answer as = some ⟨t, true⟩ := by
  simp only [Session.answer, hw, h]

/-- The answers do not end a suspended call: it goes on waiting. -/
theorem answer_of_waitEnd_eq_none {a : Session} {as : List PollAnswer} {x : RegIdx} (hw : a.machine.wait = some x)
    (h : waitEnd (a.machine.addPolls as) = none) :
    a.answer as = some ⟨(afterWait (a.machine.addPolls as)).setWait (some x), true⟩ := by
  have hfault : endCycle (exec (.ldVxK x) (a.machine.addPolls as)) = .fault .keyWaitUnanswered := by
    rw [exec_ldVxK_of_none x h]
    rfl
  simp only [Session.answer, hw, hfault]

/-- A call that goes on waiting has changed the key state and the answers alone. -/
theorem keptExcept_still_waiting {x : RegIdx} (hw : s.wait = some x) (as : List PollAnswer) :
    keptExcept s ((afterWait (s.addPolls as)).setWait (some x)) [.keys, .polls] := by
  intro p hp
  by_cases hwait : p = .wait
  · subst hwait
    exact hw.symm
  · have hpolls : keptExcept s ((afterWait (s.addPolls as)).setWait (some x)) [.wait, .keys, .polls] :=
      keptExcept_trans (keptExcept_mono (keptExcept_addPolls s as) (by simp))
        (keptExcept_trans (keptExcept_mono (keptExcept_afterWait _) (by simp))
          (keptExcept_mono (keptExcept_setWait _ _) (by simp)))
    exact hpolls p (by simp_all)

/-- The two outcomes of an answer to a suspended call: the cycle ends, or the call waits on (R182). -/
theorem answer_cases (a : Session) (as : List PollAnswer) {x : RegIdx} (hw : a.machine.wait = some x) :
    (∃ t, endCycle (exec (.ldVxK x) (a.machine.addPolls as)) = .next t ∧ t.wait = none ∧
      a.answer as = some ⟨t, true⟩) ∨
    (waitEnd (a.machine.addPolls as) = none ∧
      a.answer as = some ⟨(afterWait (a.machine.addPolls as)).setWait (some x), true⟩) := by
  rcases exec_answers (.ldVxK x) (a.machine.addPolls as) with ⟨u, hu⟩ | ⟨x', -, hend, -⟩
  · obtain ⟨hnone, -⟩ := execLdVxK_next hu
    obtain ⟨t, ht, hwait⟩ := endCycle_next u
    rw [← hu] at ht
    exact .inl ⟨t, ht, hwait.trans hnone, answer_of_endCycle_next hw ht⟩
  · exact .inr ⟨hend, answer_of_waitEnd_eq_none hw hend⟩

/-- The call of `step()` on a fetched `Fx0A` without an end stays suspended in it. -/
theorem suspendedCall_of_fetches {x : RegIdx} (hf : s.Fetches (ofNibblesByte 0xF x 0x0A)) :
    suspendedCall s = some ((afterWait (afterPoll s)).setWait (some x)) := by
  rw [suspendedCall, hf.beginCycle_eq (decodeWord_ldVxK x)]

theorem keptExcept_suspendedCall (s : State) (x : RegIdx) :
    keptExcept s ((afterWait (afterPoll s)).setWait (some x)) [.wait, .keys, .polls] :=
  keptExcept_trans (keptExcept_mono (keptExcept_afterPoll s) (by simp))
    (keptExcept_trans (keptExcept_mono (keptExcept_afterWait _) (by simp))
      (keptExcept_mono (keptExcept_setWait _ _) (by simp)))

/-- The two outcomes of the host's call of `step()`: it returns, or its `Fx0A` waits (R182, R222). -/
theorem apply_step_cases (a : Session) :
    (∃ t, step a.machine = .next t ∧ a.apply .step = some ⟨t, true⟩) ∨
    (∃ x, a.machine.Fetches (ofNibblesByte 0xF x 0x0A) ∧ step a.machine = .fault .keyWaitUnanswered ∧
      a.apply .step = some ⟨(afterWait (afterPoll a.machine)).setWait (some x), true⟩) ∨
    (¬ (a.machine.status = .running ∧ a.machine.wait = none) ∧ a.apply .step = none) := by
  by_cases hs : a.machine.status = .running
  · by_cases hw : a.machine.wait = none
    · rcases step_answers hs hw with ⟨t, ht⟩ | ⟨x, hf, -, hfault⟩
      · exact .inl ⟨t, ht, by rw [Session.apply, ht]; rfl⟩
      · refine .inr (.inl ⟨x, hf, hfault, ?_⟩)
        rw [Session.apply, hfault, Session.ofCall, suspendedCall_of_fetches hf]
        rfl
    · exact .inr (.inr ⟨fun h => hw h.2, by rw [Session.apply, step_of_waiting hs hw]; rfl⟩)
  · exact .inr (.inr ⟨fun h => hs h.1, by rw [Session.apply, step_of_not_running hs]; rfl⟩)

/-! ### The statements -/

/-- Settles O8: a cycle that ends `Continue` ends in `tick`, and every other end comes before it. -/
theorem timersTickInCompletedCyclesOnly : Obligations.TimersTickInCompletedCyclesOnly := by
  refine ⟨fun s w i t hf hd ht hs hw => ?_, fun a as x t hwait ht hs => ?_, fun s t => step_timers_of_not_running⟩
  · have hstep : step s = .next (tick t) := by
      rw [hf.step_eq hd, ht, endCycle_of_cycleCompletes ⟨hs, hw⟩]
    exact ⟨tick t, hstep, tick_spec t⟩
  · obtain ⟨hw, -⟩ := execLdVxK_next ht
    have hcycle : endCycle (exec (.ldVxK x) (a.machine.addPolls as)) = .next (tick t) := by
      rw [ht, endCycle_of_cycleCompletes ⟨hs, hw⟩]
    exact ⟨⟨tick t, true⟩, answer_of_endCycle_next hwait hcycle, tick_spec t⟩

/-- Settles O9: a call returns between cycles or waits in its `Fx0A`, and answers end it or leave it waiting. -/
theorem suspendedCycleGoesOnWaiting : Obligations.SuspendedCycleGoesOnWaiting := by
  refine ⟨fun s t => step_wait, fun a b hb => ?_, fun a as x hw => ?_⟩
  · rcases apply_step_cases a with ⟨t, ht, happly⟩ | ⟨x, hf, hfault, happly⟩ | ⟨-, happly⟩
    · cases happly.symm.trans hb
      exact .inl ⟨ht, (step_wait ht).2⟩
    · cases happly.symm.trans hb
      exact .inr ⟨hfault, ⟨x, hf, rfl⟩, keptExcept_suspendedCall a.machine x⟩
    · cases happly.symm.trans hb
  · rcases answer_cases a as hw with ⟨t, ht, hnone, hanswer⟩ | ⟨hend, hanswer⟩
    · exact ⟨_, hanswer, .inl ⟨ht, hnone⟩⟩
    · exact ⟨_, hanswer, .inr ⟨hend, rfl, keptExcept_still_waiting hw as⟩⟩

end Sys2Proof.Machine
end

section
/-! The invariant (R20, R22, R40, R102): it holds after reset and every step keeps it, since a handler starts at a
`pc` in range and goes on at most 4 further or at an address, and pushes below the last slot only. -/

namespace Sys2Proof.Machine

variable {i : Instr} {s t : State}

/-! ### Carrying the invariant over -/

/-- The invariant looks at memory, `pc`, the stack and the suspended call only. -/
theorem inv_of_eq (h : s.Inv) (hmem : t.mem = s.mem) (hpc : t.pc = s.pc) (hsp : t.sp = s.sp)
    (hstack : t.stack = s.stack) (hwait : t.wait.isSome = true → t.status = .running ∧ t.pc.toNat ≤ 0xFFE) :
    t.Inv := by
  obtain ⟨hwf, hbound, hframes, hlast, -⟩ := h
  exact ⟨hmem ▸ hwf, hpc ▸ hbound, by rw [hsp, hstack]; exact hframes, by rw [hstack]; exact hlast, hwait⟩

theorem inv_of_eq_of_wait (h : s.Inv) (hmem : t.mem = s.mem) (hpc : t.pc = s.pc) (hsp : t.sp = s.sp)
    (hstack : t.stack = s.stack) (hwait : t.wait = none) : t.Inv :=
  inv_of_eq h hmem hpc hsp hstack (by simp [hwait])

theorem nextPc_toNat_le {w : Word} (h : s.Inv) (hpc : s.pc.toNat ≤ 0xFFE) (hw : NextPc s w) :
    w.toNat ≤ 0x1002 := by
  have h2 : (2 : Word).toNat = 2 := rfl
  have h4 : (4 : Word).toNat = 4 := rfl
  cases hw with
  | default => rw [BitVec.toNat_add, h2]; omega
  | skip => rw [BitVec.toNat_add, h4]; omega
  | target _ hw => omega
  | resume k hk =>
    have hframe := h.frames k hk
    rw [BitVec.toNat_add, h2]
    omega

/-- Every live frame is a fetchable address, the one just pushed included (R101, R102). -/
theorem frames_of_stackMove (h : s.Inv) (hpc : s.pc.toNat ≤ 0xFFE) (hst : StackMove s t) (k : Fin 16)
    (hk : k.val < t.sp.val) : t.stack[k.val].toNat ≤ 0xFFE := by
  cases hst with
  | kept hsp hstack =>
    simp only [hstack]
    exact h.frames k (hk.trans_le hsp)
  | pushed hroom hsp hstack =>
    simp only [hstack, Vector.getElem_set]
    split
    · exact hpc
    · exact h.frames k (by omega)

/-- A push is below slot 15, since it needs fewer than 15 live frames (R22). -/
theorem lastSlot_of_stackMove (h : s.Inv) (hst : StackMove s t) : t.stack[15] = 0 := by
  cases hst with
  | kept _ hstack =>
    simp only [hstack]
    exact h.lastSlot
  | pushed hroom _ hstack =>
    have hbelow : s.sp.val ≠ 15 := Nat.ne_of_lt hroom
    simp only [hstack, Vector.getElem_set, if_neg hbelow]
    exact h.lastSlot

/-! ### Handlers and cycles -/

/-- A handler that starts at a fetchable `pc` and leaves no call suspended keeps the invariant. -/
theorem exec_keeps_inv (h : s.Inv) (hpc : s.pc.toNat ≤ 0xFFE) (he : exec i s = .next t) (hwait : t.wait = none) :
    t.Inv := by
  rcases execEnd i s t he with hc | ⟨k, n, -, rfl⟩ | ⟨x, -, -, rfl⟩
  · exact ⟨hc.memory h.memory, nextPc_toNat_le h hpc hc.nextPc, frames_of_stackMove h hpc hc.stack,
      lastSlot_of_stackMove h hc.stack, by simp [hwait]⟩
  · exact inv_of_eq_of_wait h rfl rfl rfl rfl hwait
  · exact inv_of_eq_of_wait h rfl rfl rfl rfl rfl

theorem endCycle_keeps_inv (h : s.Inv) (hpc : s.pc.toNat ≤ 0xFFE)
    (hnone : ∀ u, exec i s = .next u → u.wait = none) (he : endCycle (exec i s) = .next t) : t.Inv := by
  obtain ⟨u, hu, ⟨-, rfl⟩ | ⟨-, rfl⟩⟩ := endCycle_cases he
  · exact inv_of_eq_of_wait (exec_keeps_inv h hpc hu (hnone u hu)) rfl rfl rfl rfl (hnone u hu)
  · exact exec_keeps_inv h hpc hu (hnone _ hu)

theorem afterPoll_inv (h : s.Inv) (hw : s.wait = none) : (afterPoll s).Inv :=
  inv_of_eq_of_wait h (afterPoll_mem s) (afterPoll_pc s) (afterPoll_sp s) (afterPoll_stack s)
    ((afterPoll_wait s).trans hw)

theorem step_keeps_inv (h : s.Inv) (hstep : step s = .next t) : t.Inv := by
  obtain ⟨-, hw, hcases⟩ := step_cases hstep
  have hp := afterPoll_inv h hw
  have hpw := (afterPoll_wait s).trans hw
  rcases hcases with ⟨-, rfl⟩ | ⟨-, rfl⟩ | ⟨w, -, -, rfl⟩ | ⟨w, i, hf, -, hcycle⟩
  · exact inv_of_eq_of_wait hp rfl rfl rfl rfl rfl
  · exact inv_of_eq_of_wait hp rfl rfl rfl rfl hpw
  · exact inv_of_eq_of_wait hp rfl rfl rfl rfl hpw
  · exact endCycle_keeps_inv hp (pc_of_fetchWord hf) (fun _ => exec_wait hpw) hcycle

/-- Settles O18: each of the four ways a step goes keeps the invariant (`step_keeps_inv`). -/
theorem everyStepKeepsTheInvariant : Obligations.EveryStepKeepsTheInvariant := fun _ _ => step_keeps_inv

/-! ### Reset -/

/-- Any state with the block at its reset values meets the invariant, whatever the environment's parts. -/
theorem initialized_inv (s : State) : s.initialized.Inv where
  memory := Memory.wf_nil
  pcBound := by
    show (0x200 : Word).toNat ≤ 0x1002
    decide
  frames k hk := absurd hk (Nat.not_lt_zero k.val)
  lastSlot := Vector.getElem_replicate _
  suspended hw := absurd hw Bool.false_ne_true

/-- Settles O17: the reset state is the initialized one. -/
theorem resetStateMeetsTheInvariant : Obligations.ResetStateMeetsTheInvariant := initialized_inv State.reset

end Sys2Proof.Machine
end

section
/-! The host's moves (R32, R174, R222, R230 to R235): when the host has each, what each does, and that none breaks the
invariant. -/

namespace Sys2Proof.Machine

variable {a b : Session} {s t : State}

/-! ### The reset move and the program load -/

theorem initialized_reg (s : State) (r : RegIdx) : s.initialized.reg r = 0 :=
  Vector.getElem_replicate _

theorem initialized_stack (s : State) (k : Fin 16) : s.initialized.stack[k.val] = 0 :=
  Vector.getElem_replicate _

/-- Settles O57: the block is that of `State.reset`, and the environment's parts are those of the state. -/
theorem initializeSetsTheResetValues : Obligations.InitializeSetsTheResetValues := fun s =>
  ⟨initialized_reg s, rfl, rfl, rfl, initialized_stack s, rfl, rfl, rfl, rfl, cleared_pixel,
    fun _ => rfl, rfl, ⟨rfl, rfl⟩, ⟨rfl, rfl⟩⟩

theorem load_of_le {img : List Byte} (h : img.length ≤ 0xE00) :
    s.load img = some (s.setMem (s.mem.writeBytes 0x200 img)) := if_pos (decide_eq_true h)

theorem load_of_lt {img : List Byte} (h : 0xE00 < img.length) : s.load img = none :=
  if_neg (by simpa [imageWf] using h)

/-- A loaded image stands at `0x200`, and every other byte and part is as before (R234). -/
theorem load_spec {img : List Byte} (hlen : img.length ≤ 0xE00) (h : s.load img = some t) :
    (∀ k (h : k < img.length), t.mem.read (0x200 + k) = img[k]) ∧
    (∀ c, c < 0x200 ∨ 0x200 + img.length ≤ c → t.mem.read c = s.mem.read c) ∧ keptExcept s t [.memory] := by
  cases (load_of_le hlen).symm.trans h
  have hread := Memory.read_writeBytes s.mem 0x200 img (show 0x200 + img.length ≤ 4096 by omega)
  refine ⟨fun k hk => ?_, fun c hc => ?_, keptExcept_setMem s _⟩
  · rw [State.setMem_mem, hread, if_pos (Nat.le_add_right _ _), Nat.add_sub_cancel_left,
      List.getElem?_eq_getElem hk, Option.getD_some]
  · rw [State.setMem_mem, hread]
    split
    · rw [List.getElem?_eq_none (by omega), Option.getD_none]
    · rfl

/-- Settles O58: the loader checks the size, and writes the bytes from `0x200`. -/
theorem programLoadStoresTheImageOrRejectsIt : Obligations.ProgramLoadStoresTheImageOrRejectsIt := fun _ _ =>
  ⟨fun hlen => ⟨_, load_of_le hlen, load_spec hlen (load_of_le hlen)⟩, load_of_lt⟩

/-! ### When the host has a move, and its effect -/

theorem apply_init_eq_some : a.apply .init = some b ↔
    a.machine.wait = none ∧ b = ⟨a.machine.initialized, false⟩ := by
  simp [Session.apply, eq_comm]

theorem apply_setReg_eq_some {x : RegIdx} {v : Byte} : a.apply (.setReg x v) = some b ↔
    a.machine.wait = none ∧ b = ⟨a.machine.setReg x v, a.started⟩ := by
  simp [Session.apply, eq_comm]

theorem apply_restore_eq_some {fb : Screen} : a.apply (.restore fb) = some b ↔
    a.machine.wait = none ∧ b = ⟨a.machine.setScreen fb, a.started⟩ := by
  simp [Session.apply, eq_comm]

theorem apply_load_eq_some {img : List Byte} : a.apply (.load img) = some b ↔
    (a.started = false ∧ a.machine.wait = none) ∧ ∃ t, a.machine.load img = some t ∧ b = ⟨t, false⟩ := by
  simp only [Session.apply, Option.ite_none_right_eq_some, Option.map_eq_some_iff, eq_comm (b := b)]

theorem exists_load_iff {img : List Byte} : (∃ t, s.load img = some t) ↔ img.length ≤ 0xE00 := by
  constructor
  · rintro ⟨t, ht⟩
    by_contra hlen
    rw [load_of_lt (Nat.not_le.1 hlen)] at ht
    cases ht
  · exact fun hlen => ⟨_, load_of_le hlen⟩

theorem apply_step_iff :
    (∃ b, a.apply .step = some b) ↔ a.machine.status = .running ∧ a.machine.wait = none := by
  constructor
  · rintro ⟨b, hb⟩
    rcases apply_step_cases a with ⟨t, ht, -⟩ | ⟨x, hf, -⟩ | ⟨-, hnone⟩
    · obtain ⟨hs, hw, -⟩ := step_cases ht
      exact ⟨hs, hw⟩
    · exact ⟨hf.running, hf.betweenCycles⟩
    · cases hnone.symm.trans hb
  · intro h
    rcases apply_step_cases a with ⟨t, -, happly⟩ | ⟨x, -, -, happly⟩ | ⟨hnot, -⟩
    · exact ⟨_, happly⟩
    · exact ⟨_, happly⟩
    · exact absurd h hnot

theorem apply_step_spec (hb : a.apply .step = some b) : b.started = true ∧
    (step a.machine = .next b.machine ∨ (step a.machine = .fault .keyWaitUnanswered ∧ b.machine.wait ≠ none ∧
      keptExcept a.machine b.machine [.wait, .keys, .polls])) := by
  rcases apply_step_cases a with ⟨t, ht, happly⟩ | ⟨x, -, hfault, happly⟩ | ⟨-, happly⟩
  · cases happly.symm.trans hb
    exact ⟨rfl, .inl ht⟩
  · cases happly.symm.trans hb
    exact ⟨rfl, .inr ⟨hfault, Option.some_ne_none x, keptExcept_suspendedCall a.machine x⟩⟩
  · cases happly.symm.trans hb

theorem answer_iff {as : List PollAnswer} : (∃ b, a.answer as = some b) ↔ a.machine.wait ≠ none := by
  constructor
  · rintro ⟨b, hb⟩ hw
    simp [Session.answer, hw] at hb
  · intro hw
    obtain ⟨x, hx⟩ := Option.ne_none_iff_exists'.1 hw
    rcases answer_cases a as hx with ⟨t, -, -, hanswer⟩ | ⟨-, hanswer⟩
    · exact ⟨_, hanswer⟩
    · exact ⟨_, hanswer⟩

/-- Only the reset move makes an engine run that does not (R222). -/
theorem eq_init_of_running {m : HostMove} (hs : a.machine.status ≠ .running) (hb : a.apply m = some b)
    (hr : b.machine.status = .running) : m = .init := by
  cases m with
  | init => rfl
  | load img =>
    obtain ⟨-, t, ht, rfl⟩ := apply_load_eq_some.1 hb
    obtain ⟨-, -, hkept⟩ := load_spec (exists_load_iff.1 ⟨t, ht⟩) ht
    exact absurd ((hkept .status (by simp)).symm.trans hr) hs
  | step =>
    obtain ⟨hrun, -⟩ := apply_step_iff.1 ⟨b, hb⟩
    exact absurd hrun hs
  | setReg x v =>
    obtain ⟨-, rfl⟩ := apply_setReg_eq_some.1 hb
    exact absurd hr hs
  | restore fb =>
    obtain ⟨-, rfl⟩ := apply_restore_eq_some.1 hb
    exact absurd hr hs

/-- Settles O59: one line of the table after the other. -/
theorem hostMovesAreThoseOfTheTable : Obligations.HostMovesAreThoseOfTheTable := by
  refine ⟨fun a => ⟨?_, fun b hb => ?_⟩, fun a img => ⟨?_, fun b hb => ?_⟩,
    fun a => ⟨apply_step_iff, fun b => apply_step_spec⟩, fun a x v => ⟨?_, fun b hb => ?_⟩,
    fun a fb => ⟨?_, fun b hb => ?_⟩, fun a x => ⟨fun hw => ?_, fun hw => ?_⟩, fun a as => answer_iff,
    fun a b m => eq_init_of_running⟩
  · simp [apply_init_eq_some]
  · obtain ⟨-, rfl⟩ := apply_init_eq_some.1 hb
    exact ⟨rfl, rfl⟩
  · simp only [apply_load_eq_some, ← exists_load_iff (s := a.machine)]
    exact ⟨fun ⟨_, ⟨hstarted, hw⟩, t, ht, _⟩ => ⟨hstarted, hw, t, ht⟩,
      fun ⟨hstarted, hw, t, ht⟩ => ⟨_, ⟨hstarted, hw⟩, t, ht, rfl⟩⟩
  · obtain ⟨-, t, ht, rfl⟩ := apply_load_eq_some.1 hb
    exact ⟨rfl, load_spec (exists_load_iff.1 ⟨t, ht⟩) ht⟩
  · simp [apply_setReg_eq_some]
  · obtain ⟨-, rfl⟩ := apply_setReg_eq_some.1 hb
    exact ⟨State.setReg_reg_self _ x v, regsKept_setReg _ x v (by simp), keptExcept_setReg _ x v, rfl⟩
  · simp [apply_restore_eq_some]
  · obtain ⟨-, rfl⟩ := apply_restore_eq_some.1 hb
    exact ⟨rfl, keptExcept_setScreen _ fb, rfl⟩
  · exact ⟨if_pos hw, if_pos hw⟩
  · exact ⟨if_neg hw, if_neg hw⟩

/-! ### The invariant between the steps -/

theorem load_keeps_inv {img : List Byte} (h : s.Inv) (hl : s.load img = some t) : t.Inv := by
  cases (load_of_le (exists_load_iff.1 ⟨t, hl⟩)).symm.trans hl
  exact ⟨Memory.wf_writeBytes h.memory _ img, h.pcBound, h.frames, h.lastSlot, h.suspended⟩

/-- A call suspended in a fetched `Fx0A` is in a running engine at a fetchable `pc`. -/
theorem suspendedCall_inv {w : Word} (h : s.Inv) (hf : s.Fetches w) (x : RegIdx) :
    ((afterWait (afterPoll s)).setWait (some x)).Inv := by
  refine inv_of_eq h (afterPoll_mem s) (afterPoll_pc s) (afterPoll_sp s) (afterPoll_stack s) fun _ => ⟨?_, ?_⟩
  · exact (afterPoll_status s).trans hf.running
  · exact (congrArg BitVec.toNat (afterPoll_pc s)).trans_le hf.inRange

theorem apply_keeps_inv (h : a.machine.Inv) {m : HostMove} (hb : a.apply m = some b) : b.machine.Inv := by
  cases m with
  | init =>
    obtain ⟨-, rfl⟩ := apply_init_eq_some.1 hb
    exact initialized_inv _
  | load img =>
    obtain ⟨-, t, ht, rfl⟩ := apply_load_eq_some.1 hb
    exact load_keeps_inv h ht
  | step =>
    rcases apply_step_cases a with ⟨t, ht, happly⟩ | ⟨x, hf, -, happly⟩ | ⟨-, happly⟩
    · cases happly.symm.trans hb
      exact step_keeps_inv h ht
    · cases happly.symm.trans hb
      exact suspendedCall_inv h hf x
    · cases happly.symm.trans hb
  | setReg x v =>
    obtain ⟨-, rfl⟩ := apply_setReg_eq_some.1 hb
    exact inv_of_eq h rfl rfl rfl rfl h.suspended
  | restore fb =>
    obtain ⟨-, rfl⟩ := apply_restore_eq_some.1 hb
    exact inv_of_eq h rfl rfl rfl rfl h.suspended

theorem answer_keeps_inv (h : a.machine.Inv) {as : List PollAnswer} (hb : a.answer as = some b) :
    b.machine.Inv := by
  obtain ⟨x, hx⟩ := Option.ne_none_iff_exists'.1 (answer_iff.1 ⟨b, hb⟩)
  have hsuspended := h.suspended (by rw [hx]; rfl)
  have hpolled : (a.machine.addPolls as).Inv := inv_of_eq h rfl rfl rfl rfl h.suspended
  rcases answer_cases a as hx with ⟨t, ht, -, hanswer⟩ | ⟨-, hanswer⟩
  · cases hanswer.symm.trans hb
    exact endCycle_keeps_inv (i := .ldVxK x) hpolled hsuspended.2 (fun _ hu => (execLdVxK_next hu).1) ht
  · cases hanswer.symm.trans hb
    exact inv_of_eq hpolled rfl rfl rfl rfl fun _ => hsuspended

/-- Settles O19: a move sets a part the invariant does not look at, or is a reset, a load, a step or a wait. -/
theorem everyHostMoveKeepsTheInvariant : Obligations.EveryHostMoveKeepsTheInvariant :=
  ⟨fun _ _ _ h => apply_keeps_inv h, fun _ _ _ h => answer_keeps_inv h⟩

end Sys2Proof.Machine
end
